-- ==== Sys2Proof/Word.lean ====
section
/-! DEFINITION. The two widths in which the CORE's registers and byte sequences are counted (00_scope R8). -/

namespace Sys2Proof

/-- An unsigned 32-bit value: a register, a schedule word, a SHA word (00_scope R8). -/
abbrev Word := BitVec 32

/-- An unsigned 8-bit value (00_scope R8). -/
abbrev Byte := BitVec 8

end Sys2Proof
end

