-- ==== Sys2Proof/Syntax.lean ====
section
/-! DEFINITION. The command set as syntax: one constructor per row of spec/opcode_table.json (30_encoding R95). -/

namespace Sys2Proof

/-- The six commands. KSZ and LEN are natural numbers, not scaled or extended (30_encoding R93, R94); the bounds their
fields put on them are `Instr.wellFormed`. -/
inductive Instr where
  /-- AES.KEYEXP with its KSZ field (41_aes_commands R142). -/
  | aesKeyexp (ksz : Nat)
  /-- AES.ENC (R143). -/
  | aesEnc
  /-- AES.DEC (R144). -/
  | aesDec
  /-- SHA.INIT (43_sha_commands R181). -/
  | shaInit
  /-- SHA.UPDATE with its LEN field (R182). -/
  | shaUpdate (len : Nat)
  /-- SHA.FINAL (R183). -/
  | shaFinal
  deriving DecidableEq, Repr

/-- Why a word is no command (30_encoding R96). Both are E_ILLEGAL to the CORE (60_exceptions R205). -/
inductive DecodeError where
  /-- OPC is 0x0 or 0x7 to 0xF. -/
  | illegalOpcode
  /-- A legal OPC with a nonzero bit outside `OPC | free(OPC)`. -/
  | reservedBitSet
  deriving DecidableEq, Repr

end Sys2Proof
end

