-- ==== Sys2Proof/WellFormed.lean ====
section
/-! DEFINITION. Which terms of the syntax have a word: the operand must fit its field (30_encoding R90). -/

namespace Sys2Proof

/-- KSZ fits bits 5:4 and LEN fits bits 14:8 (30_encoding R90, R93, R94). KSZ = 3 and LEN in 65..127 are well-formed: they
are encodable, and their errors are the acceptance's (R95's second table). -/
def Instr.wellFormed : Instr → Bool
  | .aesKeyexp ksz => ksz < 4
  | .aesEnc => true
  | .aesDec => true
  | .shaInit => true
  | .shaUpdate len => len < 128
  | .shaFinal => true

end Sys2Proof
end

