-- ==== Sys2Proof/Decode.lean ====
section
/-! DEFINITION. Command words to commands and back (30_encoding R90 to R97), and the opcode table's reading of a word. -/

namespace Sys2Proof

/-- `OPC = v[3:0]` (30_encoding R91). -/
def opcOf (v : Word) : BitVec 4 := v.extractLsb' 0 4

/-- `KSZ = v[5:4]`, zero-extended (R93). -/
def kszOf (v : Word) : Nat := (v.extractLsb' 4 2).toNat

/-- `LEN = v[14:8]`, zero-extended (R94). -/
def lenOf (v : Word) : Nat := (v.extractLsb' 8 7).toNat

/-- `mask(OPC)` for the six legal opcodes: all bits but `free(OPC)` (R92). -/
def maskOf (opc : BitVec 4) : Option Word :=
  match opc.toNat with
  | 0x1 => some 0xFFFFFFCF
  | 0x2 => some 0xFFFFFFFF
  | 0x3 => some 0xFFFFFFFF
  | 0x4 => some 0xFFFFFFFF
  | 0x5 => some 0xFFFF80FF
  | 0x6 => some 0xFFFFFFFF
  | _ => none

/-- The command a legal opcode selects, with its fields (R95). -/
def instrOf (opc : BitVec 4) (ksz len : Nat) : Option Instr :=
  match opc.toNat with
  | 0x1 => some (.aesKeyexp ksz)
  | 0x2 => some .aesEnc
  | 0x3 => some .aesDec
  | 0x4 => some .shaInit
  | 0x5 => some (.shaUpdate len)
  | 0x6 => some .shaFinal
  | _ => none

/-- The command of a word, total on all 2^32 words: OPC first, then the bits that must be zero for it (R91, R92, R96).
Decoding depends on the word alone (R97). -/
def decode (v : Word) : Except DecodeError Instr :=
  match maskOf (opcOf v), instrOf (opcOf v) (kszOf v) (lenOf v) with
  | some mask, some i => if v &&& mask = (opcOf v).setWidth 32 then .ok i else .error .reservedBitSet
  | _, _ => .error .illegalOpcode

/-- The word of a well-formed command, from R90's fields and R95's opcodes. -/
def encode : Instr → Word
  | .aesKeyexp ksz => 0x00000001 ||| (BitVec.ofNat 32 ksz <<< 4)
  | .aesEnc => 0x00000002
  | .aesDec => 0x00000003
  | .shaInit => 0x00000004
  | .shaUpdate len => 0x00000005 ||| (BitVec.ofNat 32 len <<< 8)
  | .shaFinal => 0x00000006

/-- The table's word: `nbits` bits of `w`, zeros above them, as one 32-bit CMD write (every row has 32 bits; log 23). -/
def tableWord (nbits w : Nat) : Word := BitVec.ofNat 32 (w % 2 ^ nbits)

/-- What the decoder reads from an instruction of the opcode table. -/
def decodeTableWord (nbits w : Nat) : Option Instr := (decode (tableWord nbits w)).toOption

end Sys2Proof
end

