-- ==== Sys2Proof/Config.lean ====
section
/-! DEFINITION. What an implementation fixes (BASE, LAT: 00_scope R5) and the values the spec leaves free. None has a body. -/

namespace Sys2Proof.Config

/-- BASE counted in units of 0x100 (00_scope R5: "a multiple of 0x100"; OPEN, D2; log 8). -/
opaque basePage : Nat

/-- `BASE`, the bus address of register offset 0x000 (00_scope R5). -/
def base : Nat := 0x100 * basePage

/-- The command forms LAT is a parameter of, with the only data it may depend on: KSZ, LEN and the fill length at
acceptance (70_reset_and_hazards R243, R244). -/
inductive LatForm where
  | keyexp (ksz : Nat)
  | enc (ksz : Nat)
  | dec (ksz : Nat)
  | init
  | update (fill len : Nat)
  | final (fill : Nat)
  deriving DecidableEq, Repr

/-- LAT less one, so that LAT is positive (OPEN, D31; log 11). -/
opaque latLessOne : LatForm → Nat

/-- `LAT`: clock cycles from acceptance to completion, finite and at least 1 (70_reset_and_hazards R238, R243). -/
def lat (f : LatForm) : Nat := latLessOne f + 1

/-- `any32`: the n-th value drawn freely (00_scope R11). FREE VALUE (log 5). -/
opaque any32 : Nat → Word

/-- Whether a narrow, wide or misaligned read while reset is held, with n values drawn before it, is answered with a bus
error (20_memory R63, R64) or with `any32` (70_reset_and_hazards R232). FREE VALUE: both rules speak of the read and neither
gives way (log 9). -/
opaque resetRefuses : Nat → Bool

/-- `RCON[0]`, "unspecified" and never read (40_aes_datapath R124). FREE VALUE (log 13). -/
opaque rcon0 : Byte

end Sys2Proof.Config
end

