-- ==== Sys2Proof/Machine/Bytes.lean ====
section
/-! DEFINITION. Rotations and the byte-to-word packing primitives (00_scope R9, R10). -/

namespace Sys2Proof.Machine

/-- `rotr(x, n) = (x >> n) | (x << (32 - n))` for 0 < n < 32 (00_scope R9). -/
def rotr (x : Word) (n : Nat) : Word := (x >>> n) ||| (x <<< (32 - n))

/-- `rotl(x, n) = rotr(x, 32 - n)` (R9). -/
def rotl (x : Word) (n : Nat) : Word := rotr x (32 - n)

/-- `be32(b0, b1, b2, b3)`, `b0` the most significant byte (R10). -/
def be32 (b0 b1 b2 b3 : Byte) : Word := b0 ++ b1 ++ b2 ++ b3

/-- `byte(w, j) = w[31 - 8j : 24 - 8j]` for j in 0..3, byte 0 the most significant (R10). -/
def byteOf (w : Word) (j : Nat) : Byte := w.extractLsb' (24 - 8 * j) 8

/-- `bytes_of(w0, ..., w(n-1))`: byte `4k + j` is `byte(wk, j)` (R10, 20_memory R68). -/
def bytesOf {n : Nat} (ws : Vector Word n) : List Byte :=
  ws.toList.flatMap fun w => [byteOf w 0, byteOf w 1, byteOf w 2, byteOf w 3]

end Sys2Proof.Machine
end

