-- ==== Sys2Proof/Machine/AesDatapath.lean ====
section
/-! DEFINITION. The AES datapath: field arithmetic, tables, round transforms, key schedule (40_aes_datapath R110 to R126)
and the cipher driver (41_aes_commands R140, R141). Pure functions of their arguments. -/

namespace Sys2Proof.Machine

/-- The AES state, 16 bytes `s[0..16)`; row r, column c is byte `r + 4c` (00_scope R12). -/
abbrev Block := Vector Byte 16

/-- `xtime(b)` (R110). -/
def xtime (b : Byte) : Byte := (b <<< 1) ^^^ (if b.getLsbD 7 then 0x1B else 0x00)

/-- One pass of R111's loop on `(r, x)`: add `x` if `a[i]` is set, then double it. -/
def gfmulStep (a : Byte) (p : Byte × Byte) (i : Nat) : Byte × Byte :=
  (if a.getLsbD i then p.1 ^^^ p.2 else p.1, xtime p.2)

/-- `gfmul(a, b)` (R111). -/
def gfmul (a b : Byte) : Byte := ((List.range 8).foldl (gfmulStep a) (0x00, b)).1

/-- R113's table, one row a number: the byte of column 0 first. -/
def sboxRows : List Nat :=
  [0x637c777bf26b6fc53001672bfed7ab76, 0xca82c97dfa5947f0add4a2af9ca472c0,
   0xb7fd9326363ff7cc34a5e5f171d83115, 0x04c723c31896059a071280e2eb27b275] ++
  [0x09832c1a1b6e5aa0523bd6b329e32f84, 0x53d100ed20fcb15b6acbbe394a4c58cf,
   0xd0efaafb434d338545f9027f503c9fa8, 0x51a3408f929d38f5bcb6da2110fff3d2] ++
  [0xcd0c13ec5f974417c4a77e3d645d1973, 0x60814fdc222a908846eeb814de5e0bdb,
   0xe0323a0a4906245cc2d3ac629195e479, 0xe7c8376d8dd54ea96c56f4ea657aae08] ++
  [0xba78252e1ca6b4c6e8dd741f4bbd8b8a, 0x703eb5664803f60e613557b986c11d9e,
   0xe1f8981169d98e949b1e87e9ce5528df, 0x8ca1890dbfe6426841992d0fb054bb16]

/-- R114's table, in the same form. -/
def invSboxRows : List Nat :=
  [0x52096ad53036a538bf40a39e81f3d7fb, 0x7ce339829b2fff87348e4344c4dee9cb,
   0x547b9432a6c2233dee4c950b42fac34e, 0x082ea16628d924b2765ba2496d8bd125] ++
  [0x72f8f66486689816d4a45ccc5d65b692, 0x6c704850fdedb9da5e154657a78d9d84,
   0x90d8ab008cbcd30af7e45805b8b34506, 0xd02c1e8fca3f0f02c1afbd0301138a6b] ++
  [0x3a9111414f67dcea97f2cfcef0b4e673, 0x96ac7422e7ad3585e2f937e81c75df6e,
   0x47f11a711d29c5896fb7620eaa18be1b, 0xfc563e4bc6d279209adbc0fe78cd5af4] ++
  [0x1fdda8338807c731b11210592780ec5f, 0x60517fa919b54a0d2de57a9f93c99cef,
   0xa0e03b4dae2af5b0c8ebbb3c83539961, 0x172b047eba77d626e169146355210c7d]

/-- Entry x of such a table: row the high nibble of x, column the low nibble. -/
def tableEntry (rows : List Nat) (x : Byte) : Byte :=
  BitVec.ofNat 8 ((rows.getD (x.toNat / 16) 0) >>> (8 * (15 - x.toNat % 16)))

/-- `SBOX[x]` (R113). -/
def sbox (x : Byte) : Byte := tableEntry sboxRows x

/-- `INV_SBOX[x]` (R114). -/
def invSbox (x : Byte) : Byte := tableEntry invSboxRows x

/-- `s[r, c]`, row and column taken modulo 4 (00_scope R12). -/
def cell (s : Block) (r c : Nat) : Byte := s[r % 4 + 4 * (c % 4)]'(by omega)

/-- The state whose byte at row r, column c is `f r c` (00_scope R12). -/
def blockOfCells (f : Nat → Nat → Byte) : Block := Vector.ofFn fun i => f (i.val % 4) (i.val / 4)

/-- `SubBytes` (R115). -/
def subBytes (s : Block) : Block := Vector.ofFn fun i => sbox s[i]

/-- `InvSubBytes` (R116). -/
def invSubBytes (s : Block) : Block := Vector.ofFn fun i => invSbox s[i]

/-- `ShiftRows(s)[r, c] = s[r, (c + r) mod 4]` (R117). -/
def shiftRows (s : Block) : Block := blockOfCells fun r c => cell s r (c + r)

/-- `InvShiftRows(s)[r, c] = s[r, (c - r) mod 4]` (R118); r is at most 3, so 4 is added before it is taken off. -/
def invShiftRows (s : Block) : Block := blockOfCells fun r c => cell s r (c + 4 - r)

/-- `MixColumns` (R119). -/
def mixColumns (s : Block) : Block := blockOfCells fun r c =>
  gfmul 2 (cell s r c) ^^^ gfmul 3 (cell s (r + 1) c) ^^^ cell s (r + 2) c ^^^ cell s (r + 3) c

/-- `InvMixColumns` (R120). -/
def invMixColumns (s : Block) : Block := blockOfCells fun r c =>
  gfmul 14 (cell s r c) ^^^ gfmul 11 (cell s (r + 1) c) ^^^ gfmul 13 (cell s (r + 2) c) ^^^ gfmul 9 (cell s (r + 3) c)

/-- `AddRoundKey` (R121). -/
def addRoundKey (s k : Block) : Block := Vector.ofFn fun i => s[i] ^^^ k[i]

/-- `RotWord` (R122). -/
def rotWord (t : Word) : Word := rotl t 8

/-- `SubWord` (R123). -/
def subWord (t : Word) : Word :=
  be32 (sbox (byteOf t 0)) (sbox (byteOf t 1)) (sbox (byteOf t 2)) (sbox (byteOf t 3))

/-- `RCON[1..19]` (R124). -/
def rconTable : List Byte :=
  [0x01, 0x02, 0x04, 0x08, 0x10, 0x20, 0x40, 0x80, 0x1b, 0x36] ++
  [0x6c, 0xd8, 0xab, 0x4d, 0x9a, 0x2f, 0x5e, 0xbc, 0x63]

/-- `RCON[j]`: entry 0 is unspecified (a free value, log 13); R125 reads entries 1 to 10 only (R124). -/
def rcon (j : Nat) : Byte := if j = 0 then Config.rcon0 else rconTable.getD (j - 1) 0

/-- R125's `t` for word index i, from `w[i-1]`. -/
def scheduleTerm (nk i : Nat) (prev : Word) : Word :=
  if i % nk = 0 then subWord (rotWord prev) ^^^ ((rcon (i / nk)).setWidth 32 <<< 24)
  else if nk > 6 ∧ i % nk = 4 then subWord prev
  else prev

/-- One pass of R125's second loop: append `w[i] = w[i-Nk] ^ t`. -/
def scheduleStep (nk : Nat) (w : List Word) (i : Nat) : List Word :=
  w ++ [w.getD (i - nk) 0 ^^^ scheduleTerm nk i (w.getD (i - 1) 0)]

/-- The first Nk words: the key's big-endian 32-bit chunks (R125's first loop). -/
def keyWords (key : List Byte) (nk : Nat) : List Word :=
  (List.range nk).map fun i =>
    be32 (key.getD (4 * i) 0) (key.getD (4 * i + 1) 0) (key.getD (4 * i + 2) 0) (key.getD (4 * i + 3) 0)

/-- `KeyExpansion(key, Nk, Nr)`: the `4(Nr+1)` schedule words (R125). -/
def keyExpansion (key : List Byte) (nk nr : Nat) : List Word :=
  (List.range' nk (4 * (nr + 1) - nk)).foldl (scheduleStep nk) (keyWords key nk)

/-- `RK(w, r)`: byte `4c + j` is `byte(w[4r + c], j)` (R126). -/
def roundKey (w : List Word) (r : Nat) : Block := blockOfCells fun j c => byteOf (w.getD (4 * r + c) 0) j

/-- One of the rounds 1 to Nr-1 of R140. -/
def encryptRound (w : List Word) (s : Block) (round : Nat) : Block :=
  addRoundKey (mixColumns (shiftRows (subBytes s))) (roundKey w round)

/-- `AES_Encrypt(p, w, Nr)` (R140). -/
def aesEncrypt (p : Block) (w : List Word) (nr : Nat) : Block :=
  let s := (List.range' 1 (nr - 1)).foldl (encryptRound w) (addRoundKey p (roundKey w 0))
  addRoundKey (shiftRows (subBytes s)) (roundKey w nr)

/-- One of the rounds Nr-1 down to 1 of R141. -/
def decryptRound (w : List Word) (s : Block) (round : Nat) : Block :=
  invSubBytes (invShiftRows (invMixColumns (addRoundKey s (roundKey w round))))

/-- `AES_Decrypt(c, w, Nr)`, the straight inverse (R141). -/
def aesDecrypt (c : Block) (w : List Word) (nr : Nat) : Block :=
  let s := invSubBytes (invShiftRows (addRoundKey c (roundKey w nr)))
  addRoundKey ((List.range' 1 (nr - 1)).reverse.foldl (decryptRound w) s) (roundKey w 0)

end Sys2Proof.Machine
end

