-- ==== Sys2Proof/Machine/State.lean ====
section
/-! DEFINITION. All the state the spec gives the CORE (10_state), the events it takes, and its value after reset (R48). -/

namespace Sys2Proof.Machine

/-- No behaviour of the CORE stops it: a refused access is a bus response and a rejected command is recorded in STATUS
(20_memory R65, 60_exceptions R200, R202; 93_implementation_defined: "no input stops the CORE"). So no fault exists, and
nobody raises one. -/
inductive Fault where
  deriving DecidableEq, Repr

/-- Why the model gives a step no meaning. -/
inductive Refusal where
  /-- Raised by an arm of `exec` whose instruction has no meaning yet (none is left). Safe: it stops. -/
  | notModelled (mnemonic : String)
  deriving DecidableEq, Repr

/-- The installed variant, as STATUS.KSZ codes it; the code 3 is never taken (10_state R32, 93 U8). -/
inductive KeySize where
  | aes128
  | aes192
  | aes256
  deriving DecidableEq, Repr

/-- The error codes of 60_exceptions R201; codes 7 to 15 are never written (93 U7). -/
inductive ErrCode where
  /-- E_NONE (0): no error since ERR was last cleared. -/
  | none
  /-- E_BUSY (1): a command word written while BUSY = 1. -/
  | busy
  /-- E_ILLEGAL (2): a word that is not well-formed. -/
  | illegal
  /-- E_KEYSIZE (3): AES.KEYEXP with KSZ = 3. -/
  | keySize
  /-- E_NOKEY (4): AES.ENC or AES.DEC with no installed key. -/
  | noKey
  /-- E_NOCTX (5): SHA.UPDATE or SHA.FINAL with no active context. -/
  | noCtx
  /-- E_LEN (6): SHA.UPDATE with LEN > 64. -/
  | len
  deriving DecidableEq, Repr

/-- `sha.state`; the code 3 is never taken (10_state R33, R41). -/
inductive CtxState where
  | none
  | active
  | finalized
  deriving DecidableEq, Repr

/-- The AES internal state: the installed key schedule (10_state R40). -/
structure CipherState where
  rk       : Vector Word 60
  nk       : Nat
  nr       : Nat
  keyvalid : Bool
  ksz      : KeySize
  deriving DecidableEq, Repr

/-- The SHA internal state: the hash streaming context (10_state R41). -/
structure ShaContext where
  buf    : Vector Byte 64
  fill   : Nat
  bitlen : BitVec 64
  h      : Vector Word 8
  state  : CtxState
  deriving DecidableEq, Repr

/-- `inflight` when it is not none: the accepted command, the field its opcode has, and the snapshot of its input registers
(10_state R42). A command without a KSZ or LEN field has it zero (30_encoding R92), so it is not held. -/
inductive Inflight where
  | keyexp (ksz : KeySize) (keys : Vector Word 8)
  | enc (block : Vector Word 4)
  | dec (block : Vector Word 4)
  | init
  | update (len : Nat) (msg : Vector Word 16)
  | final
  deriving DecidableEq, Repr

/-- A bus address as the CORE sees it: an offset into its window, or not its own (20_memory R60). -/
inductive BusAddr where
  | window (off : BitVec 8)
  | outside (addr : Nat)
  deriving DecidableEq, Repr

/-- A host transaction's direction, with the data of a write. -/
inductive BusOp where
  | read
  | write (v : Word)
  deriving DecidableEq, Repr

/-- One host bus transaction: `MemRead(addr, bytes)` or `MemWrite(addr, bytes, v)` (00_scope R11). The CORE looks at the
data of 4-byte writes only, so 32 bits of it are held (log 22). -/
structure Access where
  addr  : BusAddr
  bytes : Nat
  op    : BusOp
  deriving DecidableEq, Repr

/-- The events of 20_memory R72 and 70_reset_and_hazards R230. -/
inductive Event where
  /-- A host access. -/
  | access (a : Access)
  /-- The moment of the engine's completion step. -/
  | complete
  /-- The reset input takes this level. -/
  | resetPin (asserted : Bool)
  deriving DecidableEq, Repr

/-- What the CORE answers a host access (20_memory R61, R62, R65). -/
inductive BusResponse where
  /-- No access yet. -/
  | none
  /-- A read returned this value. -/
  | readData (v : Word)
  /-- A write was accepted. -/
  | writeDone
  /-- The access was refused. -/
  | busError
  /-- The address is not the CORE's; it gives no answer. -/
  | notDecoded
  deriving DecidableEq, Repr

/-- The two agents that act on the state (00_scope R7). -/
inductive Agent where
  | host
  | engine
  deriving DecidableEq, Repr

/-- The CORE's state, then the reset input's level, then the model's own fields (INVENTORY.md, `## State`). -/
structure State where
  /-- CTRL.IE (10_state R24). -/
  ie        : Bool
  /-- STATUS.DONE (R28). -/
  done      : Bool
  /-- STATUS.ERR (R29). -/
  err       : Bool
  /-- STATUS.ERRCODE (R30). -/
  errcode   : ErrCode
  /-- KEY0..KEY7 (R37). -/
  key       : Vector Word 8
  /-- AES_DIN0..3 (R38). -/
  aesDin    : Vector Word 4
  /-- AES_DOUT0..3 (R38). -/
  aesDout   : Vector Word 4
  /-- SHA_DIN0..15 (R39). -/
  shaDin    : Vector Word 16
  /-- `rk`, `nk`, `nr`, `keyvalid`, `ksz` (R40). -/
  cipher    : CipherState
  /-- `sha.buf`, `sha.fill`, `sha.bitlen`, `sha.h`, `sha.state` (R41). -/
  sha       : ShaContext
  /-- `inflight`; STATUS.BUSY is its being there (R27, R42; log 12). -/
  inflight  : Option Inflight
  /-- The level of the reset input (70_reset_and_hazards R230). -/
  resetHeld : Bool
  /-- MODEL's own: the agent whose half of a command `exec` carries out (log 3). -/
  turn      : Agent
  /-- MODEL's own: the events still to come, the next one first (log 1). -/
  events    : List Event
  /-- MODEL's own: the answer to the latest host access (log 6). -/
  response  : BusResponse
  /-- MODEL's own: how many free values have been drawn (log 5). -/
  draws     : Nat
  deriving DecidableEq, Repr

/-- No key installed: `keyvalid = 0` and every word zero (10_state R48). -/
def CipherState.reset : CipherState :=
  { rk := Vector.replicate 60 0, nk := 0, nr := 0, keyvalid := false, ksz := .aes128 }

/-- No context: NONE and every part zero, the running state words too (10_state R48). -/
def ShaContext.reset : ShaContext :=
  { buf := Vector.replicate 64 0, fill := 0, bitlen := 0, h := Vector.replicate 8 0, state := .none }

/-- The CORE right after reset (10_state R48, 70_reset_and_hazards R233); nothing has happened at the bus yet. -/
def State.reset : State :=
  { ie := false, done := false, err := false, errcode := .none,
    key := Vector.replicate 8 0, aesDin := Vector.replicate 4 0, aesDout := Vector.replicate 4 0,
    shaDin := Vector.replicate 16 0,
    cipher := .reset, sha := .reset, inflight := none,
    resetHeld := false, turn := .host, events := [], response := .none, draws := 0 }

end Sys2Proof.Machine
end

