-- ==== Sys2Proof/Machine/Operands.lean ====
section
/-! DEFINITION. Key sizes, the codes of the register fields, and how a command assembles its operands from its snapshot
(00_scope R2, 30_encoding R93, R94, R98 to R100). -/

namespace Sys2Proof.Machine

/-- The variant a KSZ code selects; 3 names none (30_encoding R93). -/
def keySizeOfCode : Nat → Option KeySize
  | 0 => some .aes128
  | 1 => some .aes192
  | 2 => some .aes256
  | _ => none

/-- The KSZ code of a variant (00_scope R2). -/
def KeySize.code : KeySize → Nat
  | .aes128 => 0
  | .aes192 => 1
  | .aes256 => 2

/-- Nk, the key's length in words (R2). -/
def KeySize.nk : KeySize → Nat
  | .aes128 => 4
  | .aes192 => 6
  | .aes256 => 8

/-- Nr, the number of rounds (R2). -/
def KeySize.nr : KeySize → Nat
  | .aes128 => 10
  | .aes192 => 12
  | .aes256 => 14

/-- The number of a code (60_exceptions R201). -/
def ErrCode.code : ErrCode → Nat
  | .none => 0
  | .busy => 1
  | .illegal => 2
  | .keySize => 3
  | .noKey => 4
  | .noCtx => 5
  | .len => 6

/-- The number of a context state (10_state R33). -/
def CtxState.code : CtxState → Nat
  | .none => 0
  | .active => 1
  | .finalized => 2

/-- `key = bytes_of(KEY0, ..., KEY(Nk-1))`; the other key words are not read (30_encoding R98). -/
def keyBytes (k : KeySize) (keys : Vector Word 8) : List Byte := (bytesOf keys).take (4 * k.nk)

/-- `s[i] = byte(AES_DIN(i div 4), i mod 4)` (R99). -/
def blockOfWords (d : Vector Word 4) : Block := Vector.ofFn fun i => byteOf (d[i.val / 4]'(by omega)) (i.val % 4)

/-- `AES_DOUTk = be32(s[4k], s[4k+1], s[4k+2], s[4k+3])` (R99). -/
def wordsOfBlock (s : Block) : Vector Word 4 :=
  Vector.ofFn fun k => be32 s[4 * k.val] s[4 * k.val + 1] s[4 * k.val + 2] s[4 * k.val + 3]

/-- `m[i] = byte(SHA_DIN(i div 4), i mod 4)` for i below LEN; the other bytes are not read (R100). -/
def messageBytes (len : Nat) (msg : Vector Word 16) : List Byte := (bytesOf msg).take len

/-- The command an in-flight record came from: its opcode with its KSZ or LEN field (10_state R42). -/
def Inflight.instr : Inflight → Instr
  | .keyexp ksz _ => .aesKeyexp ksz.code
  | .enc _ => .aesEnc
  | .dec _ => .aesDec
  | .init => .shaInit
  | .update len _ => .shaUpdate len
  | .final => .shaFinal

end Sys2Proof.Machine
end

