-- ==== Sys2Proof/Machine/Flags.lean ====
section
/-! DEFINITION. The STATUS fields as one word, the interrupt level, and which reads are unspecified
(10_state R25 to R33, R43; 70_reset_and_hazards R239). There are no other flags (R47). -/

namespace Sys2Proof.Machine

/-- STATUS.BUSY: a command is in flight (10_state R27, R42). -/
def State.busy (s : State) : Bool := s.inflight.isSome

/-- STATUS, bits 31 down to 0 (10_state R25); the reserved bits are zero. -/
def State.statusWord (s : State) : Word :=
  0#18 ++ BitVec.ofNat 2 s.sha.state.code ++ 0#1 ++ BitVec.ofNat 2 s.cipher.ksz.code ++
    BitVec.ofBool s.cipher.keyvalid ++ BitVec.ofNat 4 s.errcode.code ++ 0#1 ++
    BitVec.ofBool s.err ++ BitVec.ofBool s.done ++ BitVec.ofBool s.busy

/-- `irq = CTRL.IE & (STATUS.DONE | STATUS.ERR)` (10_state R43, 60_exceptions R212). -/
def State.irq (s : State) : Bool := s.ie && (s.done || s.err)

/-- AES_DOUT0..3 are the result registers of AES.ENC and AES.DEC (70_reset_and_hazards R239). -/
def Inflight.writesAesDout : Inflight → Bool
  | .keyexp _ _ => false
  | .enc _ => true
  | .dec _ => true
  | .init => false
  | .update _ _ => false
  | .final => false

/-- SHA_FILL, SHA_BITLEN and SHA_DIGEST are the result registers of every SHA command (R239). -/
def Inflight.writesSha : Inflight → Bool
  | .keyexp _ _ => false
  | .enc _ => false
  | .dec _ => false
  | .init => true
  | .update _ _ => true
  | .final => true

end Sys2Proof.Machine
end

