-- ==== Sys2Proof/Machine/Registers.lean ====
section
/-! DEFINITION. The register map: names, offsets and exact values (10_state R20 to R44). -/

namespace Sys2Proof.Machine

/-- The 64 registers of the window (10_state R21). -/
inductive Reg where
  | id
  | version
  | ctrl
  | status
  | cmd
  | shaFill
  | shaBitlenLo
  | shaBitlenHi
  | key (k : Fin 8)
  | aesDin (k : Fin 4)
  | aesDout (k : Fin 4)
  | shaDigest (k : Fin 8)
  | shaDin (k : Fin 16)
  | reserved (k : Fin 16)
  deriving DecidableEq, Repr

/-- The register at byte offset `4 * n` (R21). -/
def regAt (n : Fin 64) : Reg :=
  if h : n.val < 8 then
    [Reg.id, .version, .ctrl, .status, .cmd, .shaFill, .shaBitlenLo, .shaBitlenHi][n.val]
  else if h : n.val < 16 then .key ⟨n.val - 8, by omega⟩
  else if h : n.val < 20 then .aesDin ⟨n.val - 16, by omega⟩
  else if h : n.val < 24 then .aesDout ⟨n.val - 20, by omega⟩
  else if h : n.val < 32 then .shaDigest ⟨n.val - 24, by omega⟩
  else if h : n.val < 48 then .shaDin ⟨n.val - 32, by omega⟩
  else .reserved ⟨n.val - 48, by omega⟩

/-- The byte offset of a register (R21). -/
def Reg.offset : Reg → BitVec 8
  | .id => 0x00
  | .version => 0x04
  | .ctrl => 0x08
  | .status => 0x0C
  | .cmd => 0x10
  | .shaFill => 0x14
  | .shaBitlenLo => 0x18
  | .shaBitlenHi => 0x1C
  | .key k => BitVec.ofNat 8 (0x20 + 4 * k.val)
  | .aesDin k => BitVec.ofNat 8 (0x40 + 4 * k.val)
  | .aesDout k => BitVec.ofNat 8 (0x50 + 4 * k.val)
  | .shaDigest k => BitVec.ofNat 8 (0x60 + 4 * k.val)
  | .shaDin k => BitVec.ofNat 8 (0x80 + 4 * k.val)
  | .reserved k => BitVec.ofNat 8 (0xC0 + 4 * k.val)

/-- The register an aligned offset names. -/
def regOfOffset (off : BitVec 8) : Reg := regAt ⟨off.toNat / 4, by omega⟩

/-- The exact value of a register: write-only registers and reserved offsets read zero (20_memory R61, R20, R22 to R44). -/
def State.regValue (s : State) : Reg → Word
  | .id => 0x43494E53
  | .version => 0x00000001
  | .ctrl => (BitVec.ofBool s.ie).setWidth 32
  | .status => s.statusWord
  | .cmd => 0
  | .shaFill => BitVec.ofNat 32 (s.sha.fill % 64)
  | .shaBitlenLo => s.sha.bitlen.extractLsb' 0 32
  | .shaBitlenHi => s.sha.bitlen.extractLsb' 32 32
  | .key _ => 0
  | .aesDin k => s.aesDin[k]
  | .aesDout k => s.aesDout[k]
  | .shaDigest k => s.sha.h[k]
  | .shaDin k => s.shaDin[k]
  | .reserved _ => 0

/-- Whether a register is a result register of the command in flight, so that a read of it is `any32`
(70_reset_and_hazards R239). -/
def State.resultPending (s : State) : Reg → Bool
  | .id => false
  | .version => false
  | .ctrl => false
  | .status => false
  | .cmd => false
  | .shaFill => s.inflight.any Inflight.writesSha
  | .shaBitlenLo => s.inflight.any Inflight.writesSha
  | .shaBitlenHi => s.inflight.any Inflight.writesSha
  | .key _ => false
  | .aesDin _ => false
  | .aesDout _ => s.inflight.any Inflight.writesAesDout
  | .shaDigest _ => s.inflight.any Inflight.writesSha
  | .shaDin _ => false
  | .reserved _ => false

end Sys2Proof.Machine
end

