-- ==== Sys2Proof/Machine/Ops.lean ====
section
/-! DEFINITION. The named operations every command and bus access is made of: recording a command error and clearing it,
acceptance, completion, register reads and writes, reset (60_exceptions R202, R203; 70_reset_and_hazards R230, R237, R238;
20_memory R61, R62). -/

namespace Sys2Proof.Machine

/-- `raise CmdError(code)`, the CORE's only exception: ERR and ERRCODE, and nothing else (60_exceptions R202, R215). -/
def raiseCmdError (code : ErrCode) (s : State) : State := { s with err := true, errcode := code }

/-- The "return" from a command error: the W1C write that clears ERR and ERRCODE (60_exceptions R216, 10_state R26). -/
def clearErr (s : State) : State := { s with err := false, errcode := .none }

/-- The W1C write that clears DONE (10_state R26). -/
def clearDone (s : State) : State := { s with done := false }

/-- A write of `v` to STATUS: DONE first, then ERR with ERRCODE, each only if its bit is 1 (10_state R26). -/
def writeStatus (v : Word) (s : State) : State :=
  let s := if v.getLsbD 1 then clearDone s else s
  if v.getLsbD 2 then clearErr s else s

/-- `Accept`: the command and its snapshot are in flight, so BUSY is 1, and DONE is cleared (70_reset_and_hazards R237). -/
def accept (c : Inflight) (s : State) : State := { s with inflight := some c, done := false }

/-- The end of `Complete`: nothing is in flight, so BUSY is 0, and DONE is 1 (70_reset_and_hazards R238). -/
def retire (s : State) : State := { s with inflight := none, done := true }

/-- `Issue` of a legal word: E_BUSY before every other check, then the command's own checks in the order of
60_exceptions R203, whose outcome is `checked`; acceptance if none fails. -/
def issue (checked : Except ErrCode Inflight) (s : State) : State :=
  if s.busy then raiseCmdError .busy s
  else
    match checked with
    | .error code => raiseCmdError code s
    | .ok c => accept c s

/-- `Issue` of a word that is not well-formed: E_BUSY, else E_ILLEGAL (60_exceptions R203, R205). -/
def issueIllegal (s : State) : State := issue (.error .illegal) s

/-- LAT's form for a command accepted in `s`: its opcode, KSZ, LEN and the fill length, never data (70_reset_and_hazards
R243, R244). -/
def latForm (c : Inflight) (s : State) : Config.LatForm :=
  match c with
  | .keyexp ksz _ => .keyexp ksz.code
  | .enc _ => .enc s.cipher.ksz.code
  | .dec _ => .dec s.cipher.ksz.code
  | .init => .init
  | .update len _ => .update s.sha.fill len
  | .final => .final s.sha.fill

/-- The write effect of every register but CMD, whose writes are issued (20_memory R62): read-only registers and reserved
offsets ignore the write. -/
def writeRegister (r : Reg) (v : Word) (s : State) : State :=
  match r with
  | .id => s
  | .version => s
  | .ctrl => { s with ie := v.getLsbD 0 }
  | .status => writeStatus v s
  | .cmd => s
  | .shaFill => s
  | .shaBitlenLo => s
  | .shaBitlenHi => s
  | .key k => { s with key := s.key.set k v }
  | .aesDin k => { s with aesDin := s.aesDin.set k v }
  | .aesDout _ => s
  | .shaDigest _ => s
  | .shaDin k => { s with shaDin := s.shaDin.set k v }
  | .reserved _ => s

/-- The CORE's answer to the access; the model's own field (log 6). -/
def respond (r : BusResponse) (s : State) : State := { s with response := r }

/-- A read that returns `any32`: the next free value (00_scope R11, 70_reset_and_hazards R232, R239; log 5). -/
def respondAny32 (s : State) : State :=
  { s with response := .readData (Config.any32 s.draws), draws := s.draws + 1 }

/-- `MemRead` of a register: its exact value, or `any32` for a result register of the command in flight (20_memory R61). -/
def readRegister (r : Reg) (s : State) : State :=
  if s.resultPending r then respondAny32 s else respond (.readData (s.regValue r)) s

/-- Every piece of the CORE's state at its reset value; a command in flight is abandoned (10_state R48,
70_reset_and_hazards R230, R231). The reset input's level and the model's own fields are not the CORE's to change. -/
def hardReset (s : State) : State :=
  { State.reset with
    resetHeld := s.resetHeld, turn := s.turn, events := s.events, response := s.response, draws := s.draws }

/-- The reset input takes a level: the state is at its reset values while it is asserted and on its release; a release of
an input that was not asserted is no event (70_reset_and_hazards R230; log 19). -/
def setResetPin (asserted : Bool) (s : State) : State :=
  if asserted || s.resetHeld then { hardReset s with resetHeld := asserted } else s

end Sys2Proof.Machine
end

