-- ==== Sys2Proof/Machine/Aes.lean ====
section
/-! DEFINITION. AES.KEYEXP, AES.ENC and AES.DEC (41_aes_commands R142 to R144): the acceptance in the host's turn, the
completion in the engine's (log 3). -/

namespace Sys2Proof.Machine

/-- The installed key schedule of a key: `rk`, zero past `4(Nr+1)` words, with `nk`, `nr`, `ksz` and `keyvalid` (R142). -/
def installKey (ksz : KeySize) (keys : Vector Word 8) : CipherState :=
  let w := keyExpansion (keyBytes ksz keys) ksz.nk ksz.nr
  { rk := Vector.ofFn fun i => if i.val < 4 * (ksz.nr + 1) then w.getD i.val 0 else 0
    nk := ksz.nk, nr := ksz.nr, keyvalid := true, ksz := ksz }

/-- `rk[0 .. 4(nr+1)-1]`, the words ENC and DEC read (R143, R144). -/
def CipherState.schedule (c : CipherState) : List Word := c.rk.toList.take (4 * (c.nr + 1))

/-- AES_DOUT after AES.ENC of a snapshot (R143). -/
def encryptWords (c : CipherState) (d : Vector Word 4) : Vector Word 4 :=
  wordsOfBlock (aesEncrypt (blockOfWords d) c.schedule c.nr)

/-- AES_DOUT after AES.DEC of a snapshot (R144). -/
def decryptWords (c : CipherState) (d : Vector Word 4) : Vector Word 4 :=
  wordsOfBlock (aesDecrypt (blockOfWords d) c.schedule c.nr)

/-- E_KEYSIZE if KSZ = 3; else the snapshot of KEY0..7 (R142, 60_exceptions R206). -/
def checkKeyexp (ksz : Nat) (s : State) : Except ErrCode Inflight :=
  match keySizeOfCode ksz with
  | some k => .ok (.keyexp k s.key)
  | none => .error .keySize

/-- E_NOKEY if no key is installed; else the snapshot of AES_DIN0..3 (R143, 60_exceptions R207). -/
def checkEnc (s : State) : Except ErrCode Inflight :=
  if s.cipher.keyvalid then .ok (.enc s.aesDin) else .error .noKey

/-- As `checkEnc`, for AES.DEC (R144, 60_exceptions R207). -/
def checkDec (s : State) : Except ErrCode Inflight :=
  if s.cipher.keyvalid then .ok (.dec s.aesDin) else .error .noKey

/-- AES.KEYEXP (R142). The engine completes the command that is in flight; with another or none there is nothing to do
(log 18). -/
def execAesKeyexp (ksz : Nat) (s : State) : Host.Outcome State Fault Refusal :=
  match s.turn, s.inflight with
  | .host, _ => .next (issue (checkKeyexp ksz s) s)
  | .engine, some (.keyexp k keys) => .next (retire { s with cipher := installKey k keys })
  | .engine, _ => .next s

/-- AES.ENC (R143). -/
def execAesEnc (s : State) : Host.Outcome State Fault Refusal :=
  match s.turn, s.inflight with
  | .host, _ => .next (issue (checkEnc s) s)
  | .engine, some (.enc d) => .next (retire { s with aesDout := encryptWords s.cipher d })
  | .engine, _ => .next s

/-- AES.DEC (R144). -/
def execAesDec (s : State) : Host.Outcome State Fault Refusal :=
  match s.turn, s.inflight with
  | .host, _ => .next (issue (checkDec s) s)
  | .engine, some (.dec d) => .next (retire { s with aesDout := decryptWords s.cipher d })
  | .engine, _ => .next s

end Sys2Proof.Machine
end

