-- ==== Sys2Proof/Machine/Sha.lean ====
section
/-! DEFINITION. The streaming context and SHA.INIT, SHA.UPDATE and SHA.FINAL (43_sha_commands R180 to R183): the acceptance
in the host's turn, the completion in the engine's (log 3). -/

namespace Sys2Proof.Machine

/-- `AppendByte(x)`: the context after it, and whether a compression ran (R180). -/
def appendByte (x : Byte) (c : ShaContext) : ShaContext × Bool :=
  let buf := c.buf.setIfInBounds c.fill x
  if c.fill + 1 = 64 then ({ c with buf := buf, fill := 0, h := compress c.h buf }, true)
  else ({ c with buf := buf, fill := c.fill + 1 }, false)

/-- One message byte of SHA.UPDATE: a compression adds 512 to the bit length, modulo 2^64 (R182, R186). -/
def updateByte (c : ShaContext) (x : Byte) : ShaContext :=
  let r := appendByte x c
  if r.2 then { r.1 with bitlen := r.1.bitlen + 512 } else r.1

/-- SHA.UPDATE's completion on the context: the message bytes in order (R182). -/
def updateContext (m : List Byte) (c : ShaContext) : ShaContext := m.foldl updateByte c

/-- A padding byte of SHA.FINAL: a compression it causes adds nothing to the bit length (R183). -/
def padByte (x : Byte) (c : ShaContext) : ShaContext := (appendByte x c).1

/-- `while sha.fill != 56: AppendByte(0x00)`, for at most `fuel` passes (R183; log 14). -/
def zeroFill : Nat → ShaContext → ShaContext
  | 0, c => c
  | fuel + 1, c => if c.fill = 56 then c else zeroFill fuel (padByte 0x00 c)

/-- `sha.buf[56 + j] <- sha.bitlen[63 - 8j : 56 - 8j]` for j in 0..7 (R183). -/
def writeLength (bitlen : BitVec 64) (buf : Vector Byte 64) : Vector Byte 64 :=
  (List.range 8).foldl (fun b j => b.setIfInBounds (56 + j) (bitlen.extractLsb' (56 - 8 * j) 8)) buf

/-- SHA.FINAL's completion on the context (R183). From any fill below 64 the zero fill stops within 64 passes. -/
def finalContext (c : ShaContext) : ShaContext :=
  let c := { c with bitlen := c.bitlen + BitVec.ofNat 64 (8 * c.fill) }
  let c := zeroFill 64 (padByte 0x80 c)
  let buf := writeLength c.bitlen c.buf
  { c with buf := buf, h := compress c.h buf, fill := 0, state := .finalized }

/-- The context SHA.INIT creates (R181). -/
def initContext : ShaContext :=
  { buf := Vector.replicate 64 0x00, fill := 0, bitlen := 0, h := initialHash, state := .active }

/-- E_LEN if LEN > 64, then E_NOCTX without an active context; else the snapshot of SHA_DIN0..15 (R182, 60_exceptions
R203). -/
def checkUpdate (len : Nat) (s : State) : Except ErrCode Inflight :=
  if len > 64 then .error .len
  else if s.sha.state = .active then .ok (.update len s.shaDin)
  else .error .noCtx

/-- E_NOCTX without an active context (R183, 60_exceptions R208). -/
def checkFinal (s : State) : Except ErrCode Inflight :=
  if s.sha.state = .active then .ok .final else .error .noCtx

/-- SHA.INIT, legal in every context state (R181). -/
def execShaInit (s : State) : Host.Outcome State Fault Refusal :=
  match s.turn, s.inflight with
  | .host, _ => .next (issue (.ok .init) s)
  | .engine, some .init => .next (retire { s with sha := initContext })
  | .engine, _ => .next s

/-- SHA.UPDATE (R182). -/
def execShaUpdate (len : Nat) (s : State) : Host.Outcome State Fault Refusal :=
  match s.turn, s.inflight with
  | .host, _ => .next (issue (checkUpdate len s) s)
  | .engine, some (.update n msg) => .next (retire { s with sha := updateContext (messageBytes n msg) s.sha })
  | .engine, _ => .next s

/-- SHA.FINAL (R183). -/
def execShaFinal (s : State) : Host.Outcome State Fault Refusal :=
  match s.turn, s.inflight with
  | .host, _ => .next (issue (checkFinal s) s)
  | .engine, some .final => .next (retire { s with sha := finalContext s.sha })
  | .engine, _ => .next s

end Sys2Proof.Machine
end

