-- ==== Sys2Proof/Machine/Dispatch.lean ====
section
/-! DEFINITION. One arm per command (30_encoding R95). -/

namespace Sys2Proof.Machine

/-- The meaning of a command at a state: its acceptance if it is the host's turn, its completion if the engine's. -/
def exec (i : Instr) (s : State) : Host.Outcome State Fault Refusal :=
  match i with
  | .aesKeyexp ksz => Sys2Proof.Machine.execAesKeyexp ksz s
  | .aesEnc => Sys2Proof.Machine.execAesEnc s
  | .aesDec => Sys2Proof.Machine.execAesDec s
  | .shaInit => Sys2Proof.Machine.execShaInit s
  | .shaUpdate len => Sys2Proof.Machine.execShaUpdate len s
  | .shaFinal => Sys2Proof.Machine.execShaFinal s

end Sys2Proof.Machine
end

