-- ==== Sys2Proof/Machine/Bus.lean ====
section
/-! DEFINITION. What each event does: a host access (20_memory R60 to R67), the engine's completion (70_reset_and_hazards
R238) and the reset input (R230 to R232). -/

namespace Sys2Proof.Machine

/-- The address decode of the CORE's select: the window is BASE to BASE + 0xFF (20_memory R60). -/
def busAddr (a : Nat) : BusAddr :=
  if Config.base ≤ a ∧ a < Config.base + 0x100 then .window (BitVec.ofNat 8 (a - Config.base)) else .outside a

/-- A write of `v` to CMD: the word is decoded and its command's acceptance runs; a word that is no command is illegal
(10_state R34, 30_encoding R96). -/
def issueWord (v : Word) (s : State) : Host.Outcome State Fault Refusal :=
  match decode v with
  | .ok i => exec i { s with turn := .host }
  | .error _ => .next (issueIllegal { s with turn := .host })

/-- Whether the CORE accepts the access: a whole aligned word (20_memory R63, R64). -/
def accessOk (off : BitVec 8) (bytes : Nat) : Bool := bytes = 4 && off.toNat % 4 = 0

/-- An accepted access to a register (20_memory R61, R62). -/
def accessRegister (r : Reg) (op : BusOp) (s : State) : Host.Outcome State Fault Refusal :=
  match op, r with
  | .read, r => .next (readRegister r s)
  | .write v, .cmd => issueWord v (respond .writeDone s)
  | .write v, r => .next (respond .writeDone (writeRegister r v s))

/-- An access while reset is held has no effect; a read returns `any32` (70_reset_and_hazards R232). -/
def accessInReset (op : BusOp) (s : State) : State :=
  match op with
  | .read => respondAny32 s
  | .write _ => respond .writeDone s

/-- A refused access: a bus error and nothing else (20_memory R63 to R65), while reset is held too. Only of a refused read
under reset does 70_reset_and_hazards R232 give another answer, `any32`; which of the two it gets is free (log 9). -/
def accessRefused (op : BusOp) (s : State) : State :=
  match op with
  | .write _ => respond .busError s
  | .read =>
    if s.resetHeld then
      let drawn := { s with draws := s.draws + 1 }
      if Config.resetRefuses s.draws then respond .busError drawn else respondAny32 drawn
    else respond .busError s

/-- A host access. Addresses outside the window are not decoded by the CORE (20_memory R60). -/
def hostAccess (a : Access) (s : State) : Host.Outcome State Fault Refusal :=
  match a.addr with
  | .outside _ => .next (respond .notDecoded s)
  | .window off =>
    if accessOk off a.bytes then
      if s.resetHeld then .next (accessInReset a.op s) else accessRegister (regOfOffset off) a.op s
    else .next (accessRefused a.op s)

/-- The engine's step: the completion of the command in flight, if there is one and reset is released
(70_reset_and_hazards R238, R231). -/
def engineStep (s : State) : Host.Outcome State Fault Refusal :=
  match s.inflight with
  | some c => if s.resetHeld then .next s else exec c.instr { s with turn := .engine }
  | none => .next s

/-- What an event does once it has been taken off the sequence. -/
def takeEvent (e : Event) (s : State) : Host.Outcome State Fault Refusal :=
  match e with
  | .access a => hostAccess a s
  | .complete => engineStep s
  | .resetPin asserted => .next (setResetPin asserted s)

/-- The next event (20_memory R72); when no event is to come, the engine completes what is in flight, as
70_reset_and_hazards R238 guarantees after a finite delay (log 1, log 2). -/
def nextEvent (s : State) : Host.Outcome State Fault Refusal :=
  match s.events with
  | [] => engineStep s
  | e :: rest => takeEvent e { s with events := rest }

/-- The host's write of a word to CMD, `MemWrite(BASE + 0x010, 4, v)`. -/
def cmdWrite (v : Word) : Event :=
  .access { addr := .window Reg.cmd.offset, bytes := 4, op := .write v }

end Sys2Proof.Machine
end

