-- ==== Sys2Proof/Machine/Step.lean ====
section
/-! DEFINITION. One step of the CORE, and where it takes its next command from. -/

namespace Sys2Proof.Machine

/-- One step: one event of the one sequence of 20_memory R72. -/
def step (s : State) : Host.Outcome State Fault Refusal := nextEvent s

/-- The state in which the very next step is the host's write of the table's word to CMD: the CORE fetches nothing
(20_memory R74), so its next command is the next CMD write, which takes effect with reset released (log 4). -/
def State.withFetchWord (s : State) (nbits w : Nat) : State :=
  { s with events := cmdWrite (tableWord nbits w) :: s.events, resetHeld := false }

end Sys2Proof.Machine
end

