-- ==== Sys2Proof/Machine/HostNotation.lean ====
section
/-! DEFINITION. The spec's notation for host programs and what each line expands to (30_encoding R101 to R103). -/

namespace Sys2Proof.Machine

/-- One line of a host program (R101) or a pseudo-instruction (R102). -/
inductive HostLine where
  | wr (r : Reg) (v : Word)
  | rd (r : Reg)
  | cmd (i : Instr)
  /-- `wait` in a run whose completion comes after `polls` reads of STATUS (log 25). -/
  | wait (polls : Nat)
  | clrDone
  | clrErr
  | ldkey (ws : List Word)
  | ldblk (w0 w1 w2 w3 : Word)
  | ldmsg (ws : List Word)
  | rdblk
  | rddig
  deriving DecidableEq, Repr

/-- `MemWrite(BASE + offset(REG), 4, v)`. -/
def wrEvent (r : Reg) (v : Word) : Event := .access { addr := .window r.offset, bytes := 4, op := .write v }

/-- `MemRead(BASE + offset(REG), 4)`. -/
def rdEvent (r : Reg) : Event := .access { addr := .window r.offset, bytes := 4, op := .read }

/-- The bus transactions of a line (R101 to R103). -/
def HostLine.expand : HostLine → List Event
  | .wr r v => [wrEvent r v]
  | .rd r => [rdEvent r]
  | .cmd i => [wrEvent .cmd (encode i)]
  | .wait polls => List.replicate polls (rdEvent .status) ++ [.complete, rdEvent .status]
  | .clrDone => [wrEvent .status 0x00000002]
  | .clrErr => [wrEvent .status 0x00000004]
  | .ldkey ws => ((List.finRange 8).zip ws).map fun p => wrEvent (.key p.1) p.2
  | .ldblk w0 w1 w2 w3 => ((List.finRange 4).zip [w0, w1, w2, w3]).map fun p => wrEvent (.aesDin p.1) p.2
  | .ldmsg ws => ((List.finRange 16).zip ws).map fun p => wrEvent (.shaDin p.1) p.2
  | .rdblk => (List.finRange 4).map fun k => rdEvent (.aesDout k)
  | .rddig => (List.finRange 8).map fun k => rdEvent (.shaDigest k)

/-- The state in which a host program is still to come, after what is already to come. -/
def State.withProgram (s : State) (p : List HostLine) : State :=
  { s with events := s.events ++ p.flatMap HostLine.expand }

end Sys2Proof.Machine
end

