-- ==== Sys2Proof/Safety.lean ====
section
/-! DEFINITION. The terms claims use: the state a run keeps, the acceptance rules read off the word alone, and SHA-256 of a
whole message at once. -/

namespace Sys2Proof.Safety

open Sys2Proof.Machine

/-- ERRCODE is 0 exactly when ERR is 0 (10_state R30). -/
def ErrorRecordOk (s : State) : Prop := s.err = false ↔ s.errcode = .none

/-- Either no key is installed and every word is zero, or the whole schedule is one key's (10_state R40, R31). -/
def CipherOk (c : CipherState) : Prop :=
  (c.keyvalid = false → c = .reset) ∧ (c.keyvalid = true → ∃ keys, c = installKey c.ksz keys)

/-- Fewer than 64 bytes are buffered between commands (10_state R35, R41), a context that was never created is zero (R48),
a consumed one is empty, and an active one counts whole blocks (43_sha_commands R182, R183). -/
def ContextOk (c : ShaContext) : Prop :=
  c.fill < 64 ∧ (c.state = .none → c = .reset) ∧ (c.state = .finalized → c.fill = 0) ∧
    (c.state = .active → c.bitlen.toNat % 512 = 0)

/-- What the checks of 60_exceptions R203 established at acceptance still holds, and DONE is 0 (10_state R28). -/
def InflightOk (s : State) : Prop :=
  match s.inflight with
  | none => True
  | some c =>
    s.done = false ∧
      match c with
      | .keyexp _ _ => True
      | .enc _ => s.cipher.keyvalid = true
      | .dec _ => s.cipher.keyvalid = true
      | .init => True
      | .update len _ => len ≤ 64 ∧ s.sha.state = .active
      | .final => s.sha.state = .active

/-- While reset is held every piece of the CORE's state has its reset value (70_reset_and_hazards R230). -/
def ResetHeldOk (s : State) : Prop := s.resetHeld = true → hardReset s = s

/-- A state a run of the CORE can be in, as far as the rules say. -/
structure Coherent (s : State) : Prop where
  errorRecord : ErrorRecordOk s
  cipher      : CipherOk s.cipher
  context     : ContextOk s.sha
  inflight    : InflightOk s
  resetHeld   : ResetHeldOk s

/-- 60_exceptions R203 on the word itself: the error a write of `v` to CMD raises, or `ErrCode.none` for acceptance. -/
def issueError (v : Word) (s : State) : ErrCode :=
  let op := v.extractLsb' 0 4
  let mask : Word := if op = 1 then 0xFFFFFFCF else if op = 5 then 0xFFFF80FF else 0xFFFFFFFF
  if s.busy then .busy
  else if ¬(1 ≤ op.toNat ∧ op.toNat ≤ 6) ∨ v &&& mask ≠ op.setWidth 32 then .illegal
  else if op = 1 ∧ v.extractLsb' 4 2 = 3 then .keySize
  else if op = 5 ∧ v.extractLsb' 8 7 > 64 then .len
  else if (op = 2 ∨ op = 3) ∧ s.cipher.keyvalid = false then .noKey
  else if (op = 5 ∨ op = 6) ∧ s.sha.state ≠ .active then .noCtx
  else .none

/-- 70_reset_and_hazards R237 on the word itself: the record an accepted word puts in flight. -/
def acceptedRecord (v : Word) (s : State) : Inflight :=
  let op := v.extractLsb' 0 4
  if op = 1 then
    .keyexp (if v.extractLsb' 4 2 = 0 then .aes128 else if v.extractLsb' 4 2 = 1 then .aes192 else .aes256) s.key
  else if op = 2 then .enc s.aesDin
  else if op = 3 then .dec s.aesDin
  else if op = 4 then .init
  else if op = 5 then .update (v.extractLsb' 8 7).toNat s.shaDin
  else .final

/-- The value at each offset, written from the map of 10_state R21 and the registers' rules; 20_memory R61. -/
def windowValue (off : Nat) (s : State) : Word :=
  if off = 0x000 then 0x43494E53
  else if off = 0x004 then 0x00000001
  else if off = 0x008 then (if s.ie then 1 else 0)
  else if off = 0x00C then s.statusWord
  else if off = 0x014 then BitVec.ofNat 32 s.sha.fill
  else if off = 0x018 then s.sha.bitlen.setWidth 32
  else if off = 0x01C then (s.sha.bitlen >>> 32).setWidth 32
  else if 0x040 ≤ off ∧ off < 0x050 then s.aesDin.toList.getD ((off - 0x040) / 4) 0
  else if 0x050 ≤ off ∧ off < 0x060 then s.aesDout.toList.getD ((off - 0x050) / 4) 0
  else if 0x060 ≤ off ∧ off < 0x080 then s.sha.h.toList.getD ((off - 0x060) / 4) 0
  else if 0x080 ≤ off ∧ off < 0x0C0 then s.shaDin.toList.getD ((off - 0x080) / 4) 0
  else 0

/-- The offsets of a command's result registers, as 70_reset_and_hazards R239 lists them. -/
def resultOffset (c : Inflight) (off : Nat) : Prop :=
  match c with
  | .keyexp _ _ => False
  | .enc _ => 0x050 ≤ off ∧ off < 0x060
  | .dec _ => 0x050 ≤ off ∧ off < 0x060
  | .init => (0x014 ≤ off ∧ off < 0x020) ∨ (0x060 ≤ off ∧ off < 0x080)
  | .update _ _ => (0x014 ≤ off ∧ off < 0x020) ∨ (0x060 ≤ off ∧ off < 0x080)
  | .final => (0x014 ≤ off ∧ off < 0x020) ∨ (0x060 ≤ off ∧ off < 0x080)

/-- The effect of a write at each offset but CMD's, written from the case list of 20_memory R62. -/
def windowWrite (off : Nat) (v : Word) (s : State) : State :=
  if off = 0x008 then { s with ie := v.getLsbD 0 }
  else if off = 0x00C then
    { s with
      done := s.done && !v.getLsbD 1
      err := s.err && !v.getLsbD 2
      errcode := if v.getLsbD 2 then .none else s.errcode }
  else if 0x020 ≤ off ∧ off < 0x040 then { s with key := s.key.setIfInBounds ((off - 0x020) / 4) v }
  else if 0x040 ≤ off ∧ off < 0x050 then { s with aesDin := s.aesDin.setIfInBounds ((off - 0x040) / 4) v }
  else if 0x080 ≤ off ∧ off < 0x0C0 then { s with shaDin := s.shaDin.setIfInBounds ((off - 0x080) / 4) v }
  else s

/-- The table of 10_state R48. -/
def AtReset (s : State) : Prop :=
  s.ie = false ∧ s.busy = false ∧ s.done = false ∧ s.err = false ∧ s.errcode = .none ∧
    s.cipher.keyvalid = false ∧ s.cipher.ksz.code = 0 ∧ s.sha.state = .none ∧
    (∀ k : Fin 8, s.key[k] = 0) ∧ (∀ k : Fin 4, s.aesDin[k] = 0) ∧ (∀ k : Fin 4, s.aesDout[k] = 0) ∧
    (∀ k : Fin 16, s.shaDin[k] = 0) ∧ (∀ k : Fin 60, s.cipher.rk[k] = 0) ∧ s.cipher.nk = 0 ∧ s.cipher.nr = 0 ∧
    (∀ k : Fin 8, s.sha.h[k] = 0) ∧ (∀ k : Fin 64, s.sha.buf[k] = 0) ∧ s.sha.fill = 0 ∧ s.sha.bitlen = 0 ∧
    s.inflight = none ∧ s.irq = false

/-- The next event is the engine's: the moment of completion has come, or nothing else is to come (log 2). -/
def EngineMoves (s : State) : Prop := s.events = [] ∨ s.events.head? = some .complete

/-- The next event is one of the reset input. -/
def ResetMoves (s : State) : Prop := ∃ asserted, s.events.head? = some (.resetPin asserted)

/-- The host's transactions for one chunk: its words to SHA_DIN0..15, then SHA.UPDATE of its first n bytes, completed. -/
def chunkEvents (chunk : Nat × Vector Word 16) : List Event :=
  (HostLine.ldmsg chunk.2.toList).expand ++ (HostLine.cmd (.shaUpdate chunk.1)).expand ++ [.complete]

/-- The host's transactions that hash a message given in chunks: SHA.INIT, the chunks, SHA.FINAL, each completed. -/
def hashEvents (chunks : List (Nat × Vector Word 16)) : List Event :=
  (HostLine.cmd .shaInit).expand ++ [.complete] ++ chunks.flatMap chunkEvents ++
    (HostLine.cmd .shaFinal).expand ++ [.complete]

/-- The k-th 64-byte block of a byte sequence. -/
def messageBlock (m : List Byte) (k : Nat) : Vector Byte 64 := Vector.ofFn fun j => m.getD (64 * k + j.val) 0

/-- The padded message: 0x80, zeros up to 56 modulo 64, and the length in bits as 8 big-endian bytes (43_sha_commands
R183, R186). -/
def padMessage (m : List Byte) : List Byte :=
  m ++ [0x80] ++ List.replicate ((119 - m.length % 64) % 64) 0x00 ++
    (List.range 8).map fun j => (BitVec.ofNat 64 (8 * m.length)).extractLsb' (56 - 8 * j) 8

/-- SHA-256 of a whole message: the blocks of the padded message compressed in order from H0 (42_sha_datapath R163,
R166). -/
def sha256 (m : List Byte) : Digest :=
  (List.range ((padMessage m).length / 64)).foldl (fun h k => compress h (messageBlock (padMessage m) k)) initialHash

end Sys2Proof.Safety
end

