-- ==== Sys2Proof/Certificates/Slice0/Obligations.lean ====
section
/-! DEFINITION. The statements for the provers, each read from the rules its docstring names. -/

open Sys2Proof Sys2Proof.Machine Sys2Proof.Safety

/-! ## A step runs what is at hand -/

/-- 10_state R34, 20_memory R62: when the next event is a write of `v` to CMD and `v` is the word of `i`, the step is `exec i`
at the state with that event taken, the write answered, and the host's turn. -/
def Obligations.StepRunsTheDecodedCommand : Prop :=
  ∀ (s : State) (v : Word) (i : Instr) (rest : List Event),
    s.resetHeld = false → s.events = cmdWrite v :: rest → decode v = .ok i →
    step s = exec i { s with events := rest, response := .writeDone, turn := .host }

/-- 70_reset R238: when it is the engine's move and a command is in flight, the step is `exec` of that command in the
engine's turn. -/
def Obligations.StepRunsTheCommandInFlight : Prop :=
  ∀ (s : State) (c : Inflight), s.resetHeld = false → s.inflight = some c → EngineMoves s →
    step s = exec c.instr { s with events := s.events.tail, turn := .engine }

/-- 60_exceptions R223, 70_reset R233: with nothing in flight the engine's move changes nothing but the sequence of
events. -/
def Obligations.IdleKeepsEverything : Prop :=
  ∀ s : State, s.inflight = none → EngineMoves s → step s = .next { s with events := s.events.tail }

/-- 93_implementation_defined ("no input stops the CORE"), 60_exceptions R200, R215: every step answers a next state. -/
def Obligations.NoEventStopsTheCore : Prop := ∀ s : State, ∃ t, step s = .next t

/-! ## Encoding -/

/-- 30_encoding R95, 60_exceptions R205: the well-formed words of the table and the illegal words of the examples. -/
def Obligations.DecodeReadsTheTablesWords : Prop :=
  decode 0x00000001 = .ok (.aesKeyexp 0) ∧ decode 0x00000011 = .ok (.aesKeyexp 1) ∧
  decode 0x00000021 = .ok (.aesKeyexp 2) ∧ decode 0x00000031 = .ok (.aesKeyexp 3) ∧
  decode 0x00000002 = .ok .aesEnc ∧ decode 0x00000003 = .ok .aesDec ∧ decode 0x00000004 = .ok .shaInit ∧
  (∀ n < 128, decode (BitVec.ofNat 32 (0x00000005 + n * 256)) = .ok (.shaUpdate n)) ∧
  decode 0x00000006 = .ok .shaFinal ∧
  ∀ v ∈ [0x00000000, 0x00000007, 0x0000000F, 0x00000102, 0x00000041, 0x00008005], ∀ i, decode v ≠ .ok i

/-- 30_encoding R92: the words that are commands are exactly those with OPC in 1 to 6 and no bit set outside
`OPC | free(OPC)`; any other word raises E_ILLEGAL on an idle CORE. -/
def Obligations.WellFormedWordsAreThoseOfTheMasks : Prop :=
  ∀ v : Word,
    let op := v.extractLsb' 0 4
    let mask : Word := if op = 1 then 0xFFFFFFCF else if op = 5 then 0xFFFF80FF else 0xFFFFFFFF
    ((∃ i, decode v = .ok i) ↔ (1 ≤ op.toNat ∧ op.toNat ≤ 6 ∧ v &&& mask = op.setWidth 32)) ∧
    ∀ (s : State) (rest : List Event), ¬(1 ≤ op.toNat ∧ op.toNat ≤ 6 ∧ v &&& mask = op.setWidth 32) →
      s.resetHeld = false → s.inflight = none → s.events = cmdWrite v :: rest →
      step s = .next { s with
        events := rest, response := .writeDone, turn := .host, err := true, errcode := .illegal }

/-- 30_encoding R90 to R95: decoding the word of a well-formed command gives the command back, every operand at every value
its field admits. -/
def Obligations.DecodeOfEncodeIsTheCommand : Prop :=
  ∀ i : Instr, i.wellFormed = true → decode (encode i) = .ok i

/-- 30_encoding R96: each word is the word of at most one command, and a word that decodes is the encoding of what it
decodes to. -/
def Obligations.EncodeOfDecodeIsTheWord : Prop :=
  ∀ (v : Word) (i : Instr), decode v = .ok i → i.wellFormed = true ∧ encode i = v

/-! ## Acceptance -/

/-- 60_exceptions R203, R202, 70_reset R237: a write to CMD raises the first error in R203's order and changes nothing but
ERR and ERRCODE; without one it puts the command with its snapshot in flight, clears DONE, and changes nothing else. -/
def Obligations.CmdWriteRaisesTheFirstErrorOrAccepts : Prop :=
  ∀ (s : State) (v : Word) (rest : List Event), s.resetHeld = false → s.events = cmdWrite v :: rest →
    (issueError v s = .none →
      step s = .next { s with
        events := rest, response := .writeDone, turn := .host,
        inflight := some (acceptedRecord v s), done := false }) ∧
    (issueError v s ≠ .none →
      step s = .next { s with
        events := rest, response := .writeDone, turn := .host,
        err := true, errcode := issueError v s })

/-- 70_reset R237: an accepted command is in flight with its snapshot, DONE is cleared, and nothing else changes. -/
def Obligations.AcceptedCommandGoesInFlight : Prop :=
  ∀ s : State, s.turn = .host → s.inflight = none →
    exec (.aesKeyexp 0) s = .next { s with inflight := some (.keyexp .aes128 s.key), done := false } ∧
    exec (.aesKeyexp 1) s = .next { s with inflight := some (.keyexp .aes192 s.key), done := false } ∧
    exec (.aesKeyexp 2) s = .next { s with inflight := some (.keyexp .aes256 s.key), done := false } ∧
    (s.cipher.keyvalid = true → exec .aesEnc s = .next { s with inflight := some (.enc s.aesDin), done := false }) ∧
    (s.cipher.keyvalid = true → exec .aesDec s = .next { s with inflight := some (.dec s.aesDin), done := false }) ∧
    exec .shaInit s = .next { s with inflight := some .init, done := false } ∧
    (∀ n, n ≤ 64 → s.sha.state = .active →
      exec (.shaUpdate n) s = .next { s with inflight := some (.update n s.shaDin), done := false }) ∧
    (s.sha.state = .active → exec .shaFinal s = .next { s with inflight := some .final, done := false })

/-- 60_exceptions R206 to R209: E_KEYSIZE, E_NOKEY, E_NOCTX and E_LEN, with nothing changed but ERR and ERRCODE. -/
def Obligations.FieldAndStateErrorsChangeNothingElse : Prop :=
  ∀ s : State, s.turn = .host → s.inflight = none →
    exec (.aesKeyexp 3) s = .next { s with err := true, errcode := .keySize } ∧
    (s.cipher.keyvalid = false → exec .aesEnc s = .next { s with err := true, errcode := .noKey }) ∧
    (s.cipher.keyvalid = false → exec .aesDec s = .next { s with err := true, errcode := .noKey }) ∧
    (∀ n, n ≤ 64 → s.sha.state ≠ .active →
      exec (.shaUpdate n) s = .next { s with err := true, errcode := .noCtx }) ∧
    (s.sha.state ≠ .active → exec .shaFinal s = .next { s with err := true, errcode := .noCtx }) ∧
    ∀ n, 65 ≤ n → n ≤ 127 → exec (.shaUpdate n) s = .next { s with err := true, errcode := .len }

/-- 60_exceptions R204, 70_reset R240: a CMD write of any word while a command is in flight raises E_BUSY and is otherwise
as if it had not happened: the completion that follows gives what it would have given, with the error recorded beside it. -/
def Obligations.BusyWriteDoesNotDisturbTheCommand : Prop :=
  ∀ (s : State) (c : Inflight) (v : Word) (rest : List Event),
    s.resetHeld = false → s.inflight = some c → s.events = cmdWrite v :: .complete :: rest →
    ∃ t, exec c.instr { s with turn := .engine } = .next t ∧ t.done = true ∧
      core.run 2 s = .next { t with
        events := rest, response := .writeDone, err := true, errcode := .busy }

/-! ## Completion -/

/-- 41_aes_commands R142, 40_aes_datapath R125: AES.KEYEXP's completion installs the key schedule, word by word, zeroes the
words past it, sets `nk`, `nr`, `ksz` and `keyvalid`, ends the command, and changes nothing else. -/
def Obligations.KeyexpInstallsTheKeySchedule : Prop :=
  (∀ k : KeySize, (k.code, k.nk, k.nr) ∈ [(0, 4, 10), (1, 6, 12), (2, 8, 14)]) ∧
  ∀ (s : State) (k : KeySize) (keys : Vector Word 8), s.turn = .engine → s.inflight = some (.keyexp k keys) →
    ∃ rk : Vector Word 60,
      exec (.aesKeyexp k.code) s = .next { s with
        cipher := { rk := rk, nk := k.nk, nr := k.nr, keyvalid := true, ksz := k }, inflight := none, done := true } ∧
      ∀ i : Fin 60,
        let prev := rk.toList.getD (i.val - 1) 0
        rk[i] =
          if i.val < k.nk then keys.toList.getD i.val 0
          else if i.val < 4 * (k.nr + 1) then
            rk.toList.getD (i.val - k.nk) 0 ^^^
              (if i.val % k.nk = 0 then subWord (rotWord prev) ^^^ ((rcon (i.val / k.nk)).setWidth 32 <<< 24)
               else if k.nk > 6 ∧ i.val % k.nk = 4 then subWord prev
               else prev)
          else 0

/-- 41_aes_commands R143, R144, 30_encoding R99: the completions of AES.ENC and AES.DEC write AES_DOUT from the snapshot and
the installed schedule, end the command, and change nothing else. -/
def Obligations.EncAndDecWriteTheOutputBlock : Prop :=
  ∀ (s : State) (d : Vector Word 4), s.turn = .engine →
    let w := s.cipher.rk.toList.take (4 * (s.cipher.nr + 1))
    let input : Block := Vector.ofFn fun i => byteOf (d.toList.getD (i.val / 4) 0) (i.val % 4)
    let output (b : Block) : Vector Word 4 :=
      Vector.ofFn fun k => be32 (b.toList.getD (4 * k.val) 0) (b.toList.getD (4 * k.val + 1) 0)
        (b.toList.getD (4 * k.val + 2) 0) (b.toList.getD (4 * k.val + 3) 0)
    (s.inflight = some (.enc d) →
      exec .aesEnc s = .next { s with
        aesDout := output (aesEncrypt input w s.cipher.nr), inflight := none, done := true }) ∧
    (s.inflight = some (.dec d) →
      exec .aesDec s = .next { s with
        aesDout := output (aesDecrypt input w s.cipher.nr), inflight := none, done := true })

/-- 43_sha_commands R181: SHA.INIT's completion creates an active context with the SHA-256 initial values, empty and zero,
ends the command, and changes nothing else. The initial values are 42_sha_datapath R163's. -/
def Obligations.InitCreatesAContext : Prop :=
  ∀ s : State, s.turn = .engine → s.inflight = some .init →
    exec .shaInit s = .next { s with
      sha :=
        { buf := Vector.replicate 64 0x00, fill := 0, bitlen := 0
          h := #v[0x6a09e667, 0xbb67ae85, 0x3c6ef372, 0xa54ff53a, 0x510e527f, 0x9b05688c, 0x1f83d9ab, 0x5be0cd19]
          state := .active }
      inflight := none, done := true }

/-- 43_sha_commands R182, R180, 30_encoding R100: SHA.UPDATE's completion appends the first n snapshot bytes; it compresses
once, exactly when fill + n reaches 64, adding 512 to the bit length then, ends the command, and changes nothing else. -/
def Obligations.UpdateAppendsTheMessageBytes : Prop :=
  ∀ (s : State) (n : Nat) (d : Vector Word 16), s.turn = .engine → s.inflight = some (.update n d) →
    n ≤ 64 → s.sha.fill < 64 →
    let f := s.sha.fill
    let m (i : Nat) : Byte := byteOf (d.toList.getD (i / 4) 0) (i % 4)
    (f + n < 64 → ∃ buf : Vector Byte 64,
      exec (.shaUpdate n) s = .next { s with
        sha := { s.sha with buf := buf, fill := f + n }, inflight := none, done := true } ∧
      ∀ j : Fin 64, buf[j] = if f ≤ j.val ∧ j.val < f + n then m (j.val - f) else s.sha.buf[j]) ∧
    (64 ≤ f + n → ∃ full buf : Vector Byte 64,
      exec (.shaUpdate n) s = .next { s with
        sha := { s.sha with
          buf := buf, fill := f + n - 64, bitlen := s.sha.bitlen + 512, h := compress s.sha.h full }
        inflight := none, done := true } ∧
      (∀ j : Fin 64, full[j] = if j.val < f then s.sha.buf[j] else m (j.val - f)) ∧
      ∀ j : Fin 64, buf[j] = if j.val < f + n - 64 then m (j.val + 64 - f) else full[j])

/-- 43_sha_commands R183, R186: SHA.FINAL's completion adds eight times the fill to the bit length, compresses the padded
block, or two blocks when the fill is 56 or more, with the length in the last 8 bytes, finalizes the context, ends the
command, and changes nothing else. -/
def Obligations.FinalPadsAndCompresses : Prop :=
  ∀ s : State, s.turn = .engine → s.inflight = some .final → s.sha.fill < 64 →
    let f := s.sha.fill
    let bits := s.sha.bitlen + BitVec.ofNat 64 (8 * f)
    let lengthByte (j : Nat) : Byte := bits.extractLsb' (56 - 8 * (j - 56)) 8
    let ends (last : Vector Byte 64) (h : Digest) : Prop :=
      exec .shaFinal s = .next { s with
        sha := { buf := last, fill := 0, bitlen := bits, h := compress h last, state := .finalized }
        inflight := none, done := true }
    (f ≤ 55 → ∃ last : Vector Byte 64, ends last s.sha.h ∧
      ∀ j : Fin 64, last[j] =
        if j.val < f then s.sha.buf[j] else if j.val = f then 0x80 else if j.val < 56 then 0x00 else lengthByte j.val) ∧
    (56 ≤ f → ∃ first last : Vector Byte 64, ends last (compress s.sha.h first) ∧
      (∀ j : Fin 64, first[j] = if j.val < f then s.sha.buf[j] else if j.val = f then 0x80 else 0x00) ∧
      ∀ j : Fin 64, last[j] = if j.val < 56 then 0x00 else lengthByte j.val)

/-- 43_sha_commands R184: the context life cycle: what each state accepts and rejects, that a rejection changes nothing but
ERR and ERRCODE, and the transitions, which happen at completion. -/
def Obligations.ContextLifeCycle : Prop :=
  (∀ s : State, s.turn = .host → s.inflight = none →
    (∃ t, exec .shaInit s = .next t ∧ t.inflight = some .init ∧ t.sha = s.sha) ∧
    ∀ n, n ≤ 64 → ∃ t u, exec (.shaUpdate n) s = .next t ∧ exec .shaFinal s = .next u ∧ t.sha = s.sha ∧ u.sha = s.sha ∧
      (s.sha.state = .active → t.inflight = some (.update n s.shaDin) ∧ u.inflight = some .final) ∧
      (s.sha.state ≠ .active → t = { s with err := true, errcode := .noCtx } ∧ u = { s with err := true, errcode := .noCtx })) ∧
  ∀ (s t : State) (n : Nat) (d : Vector Word 16), s.turn = .engine →
    (s.inflight = some .init → exec .shaInit s = .next t → t.sha.state = .active) ∧
    (s.inflight = some (.update n d) → s.sha.state = .active → exec (.shaUpdate n) s = .next t →
      t.sha.state = .active) ∧
    (s.inflight = some .final → exec .shaFinal s = .next t → t.sha.state = .finalized)

/-- 30_encoding R98, R100 (D37): key words past Nk and message bytes past LEN do not change a command's result. -/
def Obligations.OperandsPastTheLengthAreNotRead : Prop :=
  ∀ s : State, s.turn = .engine →
    (∀ (k : KeySize) (a b : Vector Word 8), (∀ i : Fin 8, i.val < k.nk → a[i] = b[i]) →
      exec (.aesKeyexp k.code) { s with inflight := some (.keyexp k a) } =
        exec (.aesKeyexp k.code) { s with inflight := some (.keyexp k b) }) ∧
    ∀ (n : Nat) (a b : Vector Word 16),
      (∀ i : Fin 16, ∀ j < 4, 4 * i.val + j < n → byteOf a[i] j = byteOf b[i] j) →
      exec (.shaUpdate n) { s with inflight := some (.update n a) } =
        exec (.shaUpdate n) { s with inflight := some (.update n b) }

/-! ## The register window -/

/-- 10_state R25: the word a read of STATUS returns, field by field, whether or not a command is in flight; the read changes
no state. -/
def Obligations.StatusReadIsExact : Prop :=
  ∀ (s : State) (rest : List Event), s.resetHeld = false → s.events = rdEvent .status :: rest →
    ∃ v : Word, step s = .next { s with events := rest, response := .readData v } ∧
      v.getLsbD 0 = s.inflight.isSome ∧ v.getLsbD 1 = s.done ∧ v.getLsbD 2 = s.err ∧ v.getLsbD 3 = false ∧
      (v.extractLsb' 4 4).toNat = s.errcode.code ∧ v.getLsbD 8 = s.cipher.keyvalid ∧
      (v.extractLsb' 9 2).toNat = s.cipher.ksz.code ∧ v.getLsbD 11 = false ∧
      (v.extractLsb' 12 2).toNat = s.sha.state.code ∧ v.extractLsb' 14 18 = 0

/-- 20_memory R61, 70_reset R239: an aligned 32-bit read returns the value of the register at its offset and changes no
state; of a result register of the command in flight it returns a free value (the counter of free values is the model's own,
log 5). -/
def Obligations.ReadsReturnTheRegisterOrAFreeValue : Prop :=
  ∀ (s : State) (off : BitVec 8) (rest : List Event), s.resetHeld = false → off.toNat % 4 = 0 → s.sha.fill < 64 →
    s.events = .access { addr := .window off, bytes := 4, op := .read } :: rest →
    ((∀ c, s.inflight = some c → ¬resultOffset c off.toNat) →
      step s = .next { s with events := rest, response := .readData (windowValue off.toNat s) }) ∧
    (∀ c, s.inflight = some c → resultOffset c off.toNat →
      step s = .next { s with
        events := rest, response := .readData (Config.any32 s.draws), draws := s.draws + 1 })

/-- 20_memory R62: the effect of an aligned 32-bit write at each offset; CMD presents the word to the issue logic, every
other write changes at most the one register it names. -/
def Obligations.WritesHaveTheEffectOfTheirOffset : Prop :=
  ∀ (s : State) (off : BitVec 8) (v : Word) (rest : List Event), s.resetHeld = false → off.toNat % 4 = 0 →
    s.events = .access { addr := .window off, bytes := 4, op := .write v } :: rest →
    (off.toNat = 0x010 → step s = issueWord v { s with events := rest, response := .writeDone }) ∧
    (off.toNat ≠ 0x010 →
      step s = .next { windowWrite off.toNat v s with events := rest, response := .writeDone })

/-- 10_state R26: a write to STATUS clears DONE if bit 1 is 1, and ERR with ERRCODE if bit 2 is 1; it never sets a bit of
the word STATUS reads, and no other bit of the word changes. -/
def Obligations.StatusWriteOnlyClears : Prop :=
  ∀ (s : State) (v : Word) (rest : List Event), s.resetHeld = false → s.events = wrEvent .status v :: rest →
    ∃ t, step s = .next t ∧
      t.statusWord = s.statusWord &&&
        ~~~((if v.getLsbD 1 then 0x00000002 else 0) ||| (if v.getLsbD 2 then 0x000000F4 else 0))

/-- 20_memory R63 to R65: an access that is not an aligned 32-bit access gets a bus error and changes nothing, a write while
reset is held too. Such a read while reset is held gets a bus error or, by 70_reset R232, a free value, and changes nothing;
that the choice between the two answers is free, and the counter of free values, are the model's (logs 9 and 5). -/
def Obligations.OtherAccessesGetABusError : Prop :=
  ∀ (s : State) (off : BitVec 8) (bytes : Nat) (op : BusOp) (rest : List Event),
    (bytes ≠ 4 ∨ off.toNat % 4 ≠ 0) →
    s.events = .access { addr := .window off, bytes := bytes, op := op } :: rest →
    (s.resetHeld = false ∨ op ≠ .read → step s = .next { s with events := rest, response := .busError }) ∧
    (s.resetHeld = true → op = .read →
      ∃ d, step s = .next { s with events := rest, response := .busError, draws := d } ∨
        ∃ n, step s = .next { s with events := rest, response := .readData (Config.any32 n), draws := d })

/-- 20_memory R60, 00_scope R5: BASE is a multiple of 0x100, the window is the 256 bytes from it, and an access elsewhere
changes nothing (that the CORE gives it no answer is log 8). -/
def Obligations.OnlyTheWindowIsDecoded : Prop :=
  Config.base % 0x100 = 0 ∧
  (∀ off : BitVec 8, busAddr (Config.base + off.toNat) = .window off) ∧
  (∀ a, a < Config.base ∨ Config.base + 0x100 ≤ a → busAddr a = .outside a) ∧
  ∀ (s : State) (a bytes : Nat) (op : BusOp) (rest : List Event),
    s.events = .access { addr := .outside a, bytes := bytes, op := op } :: rest →
    step s = .next { s with events := rest, response := .notDecoded }

/-- 10_state R37, R40, R41: what the host may not read back it cannot learn from a read: two states that differ only in the
key registers, the key schedule's words, the hash buffer and the snapshot in flight answer every read alike. -/
def Obligations.ReadsDoNotRevealHiddenState : Prop :=
  ∀ (s t : State) (key : Vector Word 8) (rk : Vector Word 60) (buf : Vector Byte 64) (c : Option Inflight)
    (a : BusAddr) (bytes : Nat) (rest : List Event),
    s.events = .access { addr := a, bytes := bytes, op := .read } :: rest →
    c.map Inflight.instr = s.inflight.map Inflight.instr →
    step s = .next t →
    step { s with key := key, cipher := { s.cipher with rk := rk }, sha := { s.sha with buf := buf }, inflight := c } =
      .next { t with key := key, cipher := { s.cipher with rk := rk }, sha := { s.sha with buf := buf }, inflight := c }

/-! ## Reset -/

/-- 70_reset R230, R231, 10_state R48: when reset is asserted, and when it is released, every piece of state takes its reset
value, whatever it was, and a command in flight is abandoned. -/
def Obligations.ResetGivesTheResetValues : Prop :=
  ∀ (s : State) (rest : List Event),
    (s.events = .resetPin true :: rest →
      ∃ t, step s = .next t ∧ AtReset t ∧ t.resetHeld = true ∧ t.events = rest) ∧
    (s.resetHeld = true → s.events = .resetPin false :: rest →
      ∃ t, step s = .next t ∧ AtReset t ∧ t.resetHeld = false ∧ t.events = rest)

/-- 70_reset R232: while reset is asserted an aligned 32-bit write has no effect and a read returns a free value; neither
changes the CORE's state (the answer to the write is log 10). -/
def Obligations.AccessesInResetHaveNoEffect : Prop :=
  ∀ (s : State) (off : BitVec 8) (v : Word) (rest : List Event), s.resetHeld = true → off.toNat % 4 = 0 →
    (s.events = .access { addr := .window off, bytes := 4, op := .write v } :: rest →
      step s = .next { s with events := rest, response := .writeDone }) ∧
    (s.events = .access { addr := .window off, bytes := 4, op := .read } :: rest →
      step s = .next { s with
        events := rest, response := .readData (Config.any32 s.draws), draws := s.draws + 1 })

/-- 10_state R48, R30, R40, R41: the state after reset is coherent. -/
def Obligations.ResetIsCoherent : Prop := Coherent State.reset

/-! ## Whole-machine rules -/

/-- 10_state R28, R30, R35, R40, R41, 70_reset R230: every step keeps the state coherent: the error record, the installed
schedule, the context, what the checks established for the command in flight, and the reset values while reset is held. -/
def Obligations.StepsKeepTheStateCoherent : Prop :=
  ∀ s t : State, Coherent s → step s = .next t → Coherent t

/-- 41_aes_commands R145: the installed key schedule changes only at the completion of AES.KEYEXP, which installs the
snapshot's key, and at reset. -/
def Obligations.KeyScheduleChangesOnlyAtKeyexpOrReset : Prop :=
  ∀ s t : State, step s = .next t → t.cipher ≠ s.cipher →
    (ResetMoves s ∧ t.cipher = .reset) ∨
    (EngineMoves s ∧ t.inflight = none ∧ ∃ k keys, s.inflight = some (.keyexp k keys) ∧ t.cipher = installKey k keys)

/-- 10_state R33, R38, R41: the context changes only at the completion of a SHA command and AES_DOUT only at the completion
of AES.ENC or AES.DEC, and both at reset. -/
def Obligations.ResultsChangeOnlyAtCompletionOrReset : Prop :=
  ∀ s t : State, step s = .next t →
    (t.sha ≠ s.sha → ResetMoves s ∨
      (EngineMoves s ∧ t.inflight = none ∧ t.done = true ∧
        (s.inflight = some .init ∨ (∃ n d, s.inflight = some (.update n d)) ∨ s.inflight = some .final))) ∧
    (t.aesDout ≠ s.aesDout → ResetMoves s ∨
      (EngineMoves s ∧ t.inflight = none ∧ t.done = true ∧
        ∃ d, s.inflight = some (.enc d) ∨ s.inflight = some (.dec d)))

/-- 10_state R24, R37, 20_memory R67: CTRL.IE and the input registers change only by a host write to the register itself,
and at reset. -/
def Obligations.InputRegistersChangeOnlyByTheirOwnWrite : Prop :=
  ∀ s t : State, step s = .next t → ¬ResetMoves s →
    (t.ie ≠ s.ie → ∃ v, s.events.head? = some (wrEvent .ctrl v)) ∧
    (∀ k : Fin 8, t.key[k] ≠ s.key[k] → s.events.head? = some (wrEvent (.key k) t.key[k])) ∧
    (∀ k : Fin 4, t.aesDin[k] ≠ s.aesDin[k] → s.events.head? = some (wrEvent (.aesDin k) t.aesDin[k])) ∧
    ∀ k : Fin 16, t.shaDin[k] ≠ s.shaDin[k] → s.events.head? = some (wrEvent (.shaDin k) t.shaDin[k])

/-- 10_state R28 to R30: DONE is set only by a completion and cleared only by acceptance, a W1C write or reset; ERR is set
only by a command error and cleared only by a W1C write or reset, and ERRCODE changes only with them. -/
def Obligations.DoneAndErrChangeOnlyAsTheirRulesSay : Prop :=
  ∀ s t : State, step s = .next t → ¬ResetMoves s →
    (s.done = false → t.done = true → EngineMoves s ∧ s.inflight ≠ none ∧ t.inflight = none) ∧
    (s.done = true → t.done = false →
      (s.inflight = none ∧ t.inflight ≠ none) ∨ ∃ v, s.events.head? = some (wrEvent .status v) ∧ v.getLsbD 1 = true) ∧
    (s.err = false → t.err = true → t.inflight = s.inflight ∧ t.done = s.done ∧ ∃ v, s.events.head? = some (cmdWrite v)) ∧
    (s.err = true → t.err = false → ∃ v, s.events.head? = some (wrEvent .status v) ∧ v.getLsbD 2 = true) ∧
    (t.errcode ≠ s.errcode → ∃ v, s.events.head? = some (cmdWrite v) ∧ t.errcode = issueError v s ∨
      s.events.head? = some (wrEvent .status v) ∧ v.getLsbD 2 = true ∧ t.errcode = .none)

/-- 10_state R46: an AES command writes none of the SHA state and a SHA command none of the AES state, at acceptance and at
completion. -/
def Obligations.AesAndShaStateAreDisjoint : Prop :=
  ∀ (i : Instr) (s t : State), exec i s = .next t →
    ((∃ k, i = .aesKeyexp k) ∨ i = .aesEnc ∨ i = .aesDec → t.sha = s.sha ∧ t.shaDin = s.shaDin) ∧
    (i = .shaInit ∨ (∃ n, i = .shaUpdate n) ∨ i = .shaFinal →
      t.cipher = s.cipher ∧ t.aesDin = s.aesDin ∧ t.aesDout = s.aesDout ∧ t.key = s.key)

/-- 60_exceptions R212, R213, 70_reset R238: with the interrupt enabled irq is high after every completion and after every
rejected CMD write; clearing the one cause that is left lowers it, and disabling it masks it. -/
def Obligations.IrqFollowsDoneAndErr : Prop :=
  ∀ (s t : State) (v : Word) (rest : List Event), s.resetHeld = false → step s = .next t →
    (s.ie = true → EngineMoves s → s.inflight ≠ none → t.irq = true) ∧
    (s.ie = true → s.events = cmdWrite v :: rest → issueError v s ≠ .none → t.irq = true) ∧
    (s.events = wrEvent .status v :: rest →
      t.irq = (s.ie && ((s.done && !v.getLsbD 1) || (s.err && !v.getLsbD 2)))) ∧
    (s.events = wrEvent .ctrl v :: rest → t.irq = (v.getLsbD 0 && (s.done || s.err)))

/-- 70_reset R238: a command in flight completes: unless a reset is to come, some step no later than one past the events to
come ends it with DONE = 1. -/
def Obligations.EveryAcceptedCommandCompletes : Prop :=
  ∀ s : State, s.inflight ≠ none → s.resetHeld = false → (∀ level, .resetPin level ∉ s.events) →
    ∃ n t, n ≤ s.events.length + 1 ∧ core.run n s = .next t ∧ t.inflight = none ∧ t.done = true

/-- 70_reset R241, 20_memory R72, 60_exceptions R214: a write to an input register and the completion of the command in
flight give the same state in either order. -/
def Obligations.InputWritesCommuteWithCompletion : Prop :=
  ∀ (s : State) (c : Inflight) (r : Reg) (v : Word) (rest : List Event),
    s.resetHeld = false → s.inflight = some c →
    ((∃ k, r = .key k) ∨ (∃ k, r = .aesDin k) ∨ ∃ k, r = .shaDin k) →
    ∃ t, core.run 2 { s with events := wrEvent r v :: .complete :: rest } = .next t ∧
      core.run 2 { s with events := .complete :: wrEvent r v :: rest } = .next t ∧ t.done = true ∧ t.events = rest

/-- 70_reset R243, R244: LAT is at least 1 and depends on the opcode, KSZ, LEN and the fill length alone. -/
def Obligations.LatencyIsPositiveAndDataIndependent : Prop :=
  ∀ (a b : Inflight) (s t : State), 1 ≤ Config.lat (latForm a s) ∧
    (a.instr = b.instr → s.cipher.ksz = t.cipher.ksz → s.sha.fill = t.sha.fill →
      Config.lat (latForm a s) = Config.lat (latForm b t))

/-! ## The AES datapath -/

/-- 40_aes_datapath R112: the laws of `gfmul` over all byte values. -/
def Obligations.GfmulLaws : Prop :=
  (∀ a b : Byte, gfmul a b = gfmul b a) ∧
  (∀ a b c : Byte, gfmul a (b ^^^ c) = gfmul a b ^^^ gfmul a c) ∧
  (∀ x : Byte, gfmul x 1 = x) ∧ ∀ x : Byte, gfmul x 0 = 0

/-- 40_aes_datapath R129, R121: the round transforms are mutual inverses on every state, AddRoundKey is its own, and SubBytes
and ShiftRows commute, as their inverses do. -/
def Obligations.RoundTransformsAreMutualInverses : Prop :=
  ∀ s k : Block,
    invSubBytes (subBytes s) = s ∧ subBytes (invSubBytes s) = s ∧
    invShiftRows (shiftRows s) = s ∧ shiftRows (invShiftRows s) = s ∧
    invMixColumns (mixColumns s) = s ∧ mixColumns (invMixColumns s) = s ∧
    addRoundKey (addRoundKey s k) k = s ∧
    subBytes (shiftRows s) = shiftRows (subBytes s) ∧ invSubBytes (invShiftRows s) = invShiftRows (invSubBytes s)

/-- 41_aes_commands R141: decryption undoes encryption, for every block, every schedule and every number of rounds the
variants have. -/
def Obligations.DecryptUndoesEncrypt : Prop :=
  ∀ (p : Block) (w : List Word) (nr : Nat), 1 ≤ nr → aesDecrypt (aesEncrypt p w nr) w nr = p

/-- 40_aes_datapath R127, R126: round key 0 is the first 16 key bytes. -/
def Obligations.RoundKeyZeroIsTheKeysFirstBytes : Prop :=
  ∀ (k : KeySize) (key : List Byte), key.length = 4 * k.nk →
    (keyExpansion key k.nk k.nr).length = 4 * (k.nr + 1) ∧
    (roundKey (keyExpansion key k.nk k.nr) 0).toList = key.take 16

/-- 41_aes_commands R146: from any idle state, for every key size, key and block, KEYEXP, then ENC, then DEC of the result
leaves the block in AES_DOUT, with the context and the error record untouched. -/
def Obligations.DecOfEncThroughTheRegisters : Prop :=
  ∀ (s : State) (k : KeySize) (p0 p1 p2 p3 : Word), s.resetHeld = false → s.inflight = none →
    ∃ t u,
      core.run 8 { s with events :=
        (HostLine.cmd (.aesKeyexp k.code)).expand ++ [.complete] ++ (HostLine.ldblk p0 p1 p2 p3).expand ++
          (HostLine.cmd .aesEnc).expand ++ [.complete] } = .next t ∧
      core.run 6 { t with events :=
        (HostLine.ldblk t.aesDout[0] t.aesDout[1] t.aesDout[2] t.aesDout[3]).expand ++
          (HostLine.cmd .aesDec).expand ++ [.complete] } = .next u ∧
      u.aesDout = #v[p0, p1, p2, p3] ∧ u.cipher = installKey k s.key ∧ u.sha = s.sha ∧ u.err = s.err ∧
      u.errcode = s.errcode

/-! ## SHA-256 -/

/-- 43_sha_commands R185: the digest does not depend on how a message is cut into updates, and is the SHA-256 digest of the
message. -/
def Obligations.StreamingGivesTheDigestOfTheMessage : Prop :=
  ∀ chunks : List (List Byte),
    (finalContext (chunks.foldl (fun c m => updateContext m c) initContext)).h = sha256 chunks.flatten

/-- 43_sha_commands R185: from any idle state, hashing a message through the registers in any chunks of at most 64 bytes
leaves its SHA-256 digest in SHA_DIGEST and the context finalized, with the AES state (the installed schedule, AES_DIN,
AES_DOUT and the key registers: 10_state R46) and the error record untouched. -/
def Obligations.HashingThroughTheRegisters : Prop :=
  ∀ (s : State) (chunks : List (Nat × Vector Word 16)), s.resetHeld = false → s.inflight = none →
    (∀ c ∈ chunks, c.1 ≤ 64) →
    ∃ t, core.run (hashEvents chunks).length { s with events := hashEvents chunks } = .next t ∧
      t.events = [] ∧ t.sha.state = .finalized ∧
      t.sha.h = sha256 (chunks.flatMap fun c => messageBytes c.1 c.2) ∧
      t.cipher = s.cipher ∧ t.aesDin = s.aesDin ∧ t.aesDout = s.aesDout ∧ t.key = s.key ∧
      t.err = s.err ∧ t.errcode = s.errcode
end

