-- ==== Sys2Proof/Laws/AesDatapath.lean ====
section
/-! SUPPORT. The AES state by cells and by bytes, and the shape of the key schedule (00_scope R12, 40_aes_datapath R115 to
R126), so that no proof unfolds the transforms. -/

namespace Sys2Proof.Machine

set_option Elab.async false

/-- The byte at row r, column c of a state given by its cells. -/
theorem cell_blockOfCells (f : Nat → Nat → Byte) (r c : Nat) : cell (blockOfCells f) r c = f (r % 4) (c % 4) := by
  have hr : (r % 4 + 4 * (c % 4)) % 4 = r % 4 := by omega
  have hc : (r % 4 + 4 * (c % 4)) / 4 = c % 4 := by omega
  simp only [cell, blockOfCells, Vector.getElem_ofFn, hr, hc]

/-- A state is given by its cells. -/
theorem blockOfCells_cell (s : Block) : blockOfCells (cell s) = s := by
  apply Vector.ext
  intro i hi
  have he : i % 4 % 4 + 4 * (i / 4 % 4) = i := by omega
  simp only [blockOfCells, cell, Vector.getElem_ofFn, he]

/-- Two states with the same cells are equal. -/
theorem block_ext {s t : Block} (h : ∀ r < 4, ∀ c < 4, cell s r c = cell t r c) : s = t := by
  rw [← blockOfCells_cell s, ← blockOfCells_cell t]
  apply Vector.ext
  intro i hi
  simp only [blockOfCells, Vector.getElem_ofFn]
  exact h _ (by omega) _ (by omega)

/-- A cell's row and column are taken modulo 4. -/
theorem cell_mod (s : Block) (r c : Nat) : cell s (r % 4) (c % 4) = cell s r c := by
  simp only [cell, Nat.mod_mod]

theorem cell_subBytes (s : Block) (r c : Nat) : cell (subBytes s) r c = sbox (cell s r c) := by
  simp only [cell, subBytes, Fin.getElem_fin, Vector.getElem_ofFn]

theorem cell_invSubBytes (s : Block) (r c : Nat) : cell (invSubBytes s) r c = invSbox (cell s r c) := by
  simp only [cell, invSubBytes, Fin.getElem_fin, Vector.getElem_ofFn]

theorem cell_addRoundKey (s k : Block) (r c : Nat) : cell (addRoundKey s k) r c = cell s r c ^^^ cell k r c := by
  simp only [cell, addRoundKey, Fin.getElem_fin, Vector.getElem_ofFn]

theorem cell_shiftRows (s : Block) (r c : Nat) : cell (shiftRows s) r c = cell s (r % 4) (c % 4 + r % 4) :=
  cell_blockOfCells _ r c

theorem cell_invShiftRows (s : Block) (r c : Nat) : cell (invShiftRows s) r c = cell s (r % 4) (c % 4 + 4 - r % 4) :=
  cell_blockOfCells _ r c

/-- One pass of the schedule appends one word. -/
theorem scheduleStep_length (nk : Nat) (w : List Word) (i : Nat) : (scheduleStep nk w i).length = w.length + 1 := by
  rw [scheduleStep, List.length_append]; rfl

/-- One pass of the schedule leaves the words before it. -/
theorem scheduleStep_getD (nk : Nat) (w : List Word) (i j : Nat) (h : j < w.length) :
    (scheduleStep nk w i).getD j 0 = w.getD j 0 := by
  rw [scheduleStep]
  simp only [List.getD_eq_getElem?_getD, List.getElem?_append_left h]

end Sys2Proof.Machine
end

