-- ==== Sys2Proof/Laws/Bytes.lean ====
section
/-! SUPPORT. Packing words and bytes: each primitive undoes the other (00_scope R10). -/

namespace Sys2Proof.Machine

set_option Elab.async false

/-- Bit i of byte j, for a byte inside the word. -/
theorem byteOf_getLsbD (w : Word) (j i : Nat) (hi : i < 8) : (byteOf w j).getLsbD i = w.getLsbD (24 - 8 * j + i) := by
  simp [byteOf, hi]

/-- Which byte a bit of a packed word lies in. -/
theorem be32_getLsbD (a b c d : Byte) (i : Nat) :
    (be32 a b c d).getLsbD i =
      if i < 8 then d.getLsbD i else if i < 16 then c.getLsbD (i - 8)
      else if i < 24 then b.getLsbD (i - 16) else a.getLsbD (i - 24) := by
  simp only [be32, BitVec.getLsbD_append]
  split_ifs <;> first | rfl | omega

@[simp] theorem byteOf_be32_zero (a b c d : Byte) : byteOf (be32 a b c d) 0 = a := by
  ext i hi
  rw [← BitVec.getLsbD_eq_getElem, byteOf_getLsbD _ _ _ hi, be32_getLsbD, if_neg (by omega), if_neg (by omega),
    if_neg (by omega), ← BitVec.getLsbD_eq_getElem]
  congr 1; omega

@[simp] theorem byteOf_be32_one (a b c d : Byte) : byteOf (be32 a b c d) 1 = b := by
  ext i hi
  rw [← BitVec.getLsbD_eq_getElem, byteOf_getLsbD _ _ _ hi, be32_getLsbD, if_neg (by omega), if_neg (by omega),
    if_pos (by omega), ← BitVec.getLsbD_eq_getElem]
  congr 1; omega

@[simp] theorem byteOf_be32_two (a b c d : Byte) : byteOf (be32 a b c d) 2 = c := by
  ext i hi
  rw [← BitVec.getLsbD_eq_getElem, byteOf_getLsbD _ _ _ hi, be32_getLsbD, if_neg (by omega), if_pos (by omega),
    ← BitVec.getLsbD_eq_getElem]
  congr 1; omega

@[simp] theorem byteOf_be32_three (a b c d : Byte) : byteOf (be32 a b c d) 3 = d := by
  ext i hi
  rw [← BitVec.getLsbD_eq_getElem, byteOf_getLsbD _ _ _ hi, be32_getLsbD, if_pos (by omega),
    ← BitVec.getLsbD_eq_getElem]
  congr 1; omega

/-- A word is the packing of its four bytes. -/
@[simp] theorem be32_byteOf (w : Word) : be32 (byteOf w 0) (byteOf w 1) (byteOf w 2) (byteOf w 3) = w := by
  ext i hi
  rw [← BitVec.getLsbD_eq_getElem, ← BitVec.getLsbD_eq_getElem, be32_getLsbD]
  split
  · rw [byteOf_getLsbD _ _ _ (by omega)]; congr 1; omega
  · split
    · rw [byteOf_getLsbD _ _ _ (by omega)]; congr 1; omega
    · split
      · rw [byteOf_getLsbD _ _ _ (by omega)]; congr 1; omega
      · rw [byteOf_getLsbD _ _ _ (by omega)]; congr 1; omega

/-- Byte j of a packed word, for any of its four bytes. -/
theorem byteOf_be32 (f : Nat → Byte) {j : Nat} (hj : j < 4) : byteOf (be32 (f 0) (f 1) (f 2) (f 3)) j = f j := by
  match j, hj with
  | 0, _ => simp
  | 1, _ => simp
  | 2, _ => simp
  | 3, _ => simp

/-- The bytes of a list of words, one word at a time. -/
theorem flatMap_bytes_getD (ws : List Word) (i : Nat) (h : i < 4 * ws.length) :
    (ws.flatMap fun w => [byteOf w 0, byteOf w 1, byteOf w 2, byteOf w 3]).getD i 0 =
      byteOf (ws.getD (i / 4) 0) (i % 4) := by
  induction ws generalizing i with
  | nil => simp at h
  | cons w ws ih =>
    match i with
    | 0 => rfl
    | 1 => rfl
    | 2 => rfl
    | 3 => rfl
    | i + 4 =>
      have hi : i < 4 * ws.length := by simp at h; omega
      have hq : (i + 4) / 4 = i / 4 + 1 := by omega
      have hr : (i + 4) % 4 = i % 4 := by omega
      simpa [hq, hr] using ih i hi

/-- How many bytes a register group holds. -/
@[simp] theorem bytesOf_length {n : Nat} (ws : Vector Word n) : (bytesOf ws).length = 4 * n := by
  simp [bytesOf, List.length_flatMap, Nat.mul_comm]

/-- Byte `4k + j` of a register group is byte j of its k-th word (20_memory R68). -/
theorem bytesOf_getD {n : Nat} (ws : Vector Word n) (i : Nat) (h : i < 4 * n) :
    (bytesOf ws).getD i 0 = byteOf (ws.toList.getD (i / 4) 0) (i % 4) :=
  flatMap_bytes_getD ws.toList i (by simpa using h)

/-- Reading a block's words back as bytes (30_encoding R99). -/
@[simp] theorem blockOfWords_wordsOfBlock (b : Block) : blockOfWords (wordsOfBlock b) = b := by
  apply Vector.ext
  intro i hi
  obtain ⟨q, j, hj, rfl⟩ : ∃ q j, j < 4 ∧ i = 4 * q + j := ⟨i / 4, i % 4, by omega, by omega⟩
  have hq : (4 * q + j) / 4 = q := by omega
  have hr : (4 * q + j) % 4 = j := by omega
  simp only [blockOfWords, wordsOfBlock, Vector.getElem_ofFn, hq, hr]
  match j, hj with
  | 0, _ => simp
  | 1, _ => simp
  | 2, _ => simp
  | 3, _ => simp

/-- Packing a block's bytes gives the words it came from (30_encoding R99). -/
@[simp] theorem wordsOfBlock_blockOfWords (d : Vector Word 4) : wordsOfBlock (blockOfWords d) = d := by
  ext k hk
  simp only [blockOfWords, wordsOfBlock, Vector.getElem_ofFn]
  have h0 : 4 * k / 4 = k := by omega
  have h1 : (4 * k + 1) / 4 = k := by omega
  have h2 : (4 * k + 2) / 4 = k := by omega
  have h3 : (4 * k + 3) / 4 = k := by omega
  have m0 : 4 * k % 4 = 0 := by omega
  have m1 : (4 * k + 1) % 4 = 1 := by omega
  have m2 : (4 * k + 2) % 4 = 2 := by omega
  have m3 : (4 * k + 3) % 4 = 3 := by omega
  simp only [h0, h1, h2, h3, m0, m1, m2, m3, be32_byteOf]

end Sys2Proof.Machine
end

