-- ==== Sys2Proof/Laws/Decode.lean ====
section
/-! SUPPORT. What the decoder answers, opcode by opcode, so that no proof unfolds it (30_encoding R91, R92, R95). -/

namespace Sys2Proof

set_option Elab.async false

/-- No mask belongs to the opcodes 0x0 and 0x7 to 0xF. -/
theorem maskOf_eq_none (o : BitVec 4) (h : ¬(1 ≤ o.toNat ∧ o.toNat ≤ 6)) : maskOf o = none := by
  revert o; decide

/-- Every answer of the decoder: one case per opcode, and the illegal opcodes together. -/
theorem decode_cases (v : Word) :
    (opcOf v = 1 ∧ decode v = if v &&& 0xFFFFFFCF = 1 then .ok (.aesKeyexp (kszOf v)) else .error .reservedBitSet) ∨
    (opcOf v = 2 ∧ decode v = if v &&& 0xFFFFFFFF = 2 then .ok .aesEnc else .error .reservedBitSet) ∨
    (opcOf v = 3 ∧ decode v = if v &&& 0xFFFFFFFF = 3 then .ok .aesDec else .error .reservedBitSet) ∨
    (opcOf v = 4 ∧ decode v = if v &&& 0xFFFFFFFF = 4 then .ok .shaInit else .error .reservedBitSet) ∨
    (opcOf v = 5 ∧ decode v = if v &&& 0xFFFF80FF = 5 then .ok (.shaUpdate (lenOf v)) else .error .reservedBitSet) ∨
    (opcOf v = 6 ∧ decode v = if v &&& 0xFFFFFFFF = 6 then .ok .shaFinal else .error .reservedBitSet) ∨
    (¬(1 ≤ (opcOf v).toNat ∧ (opcOf v).toNat ≤ 6) ∧ decode v = .error .illegalOpcode) := by
  generalize h : opcOf v = o
  have split_o : ∀ o : BitVec 4, o = 1 ∨ o = 2 ∨ o = 3 ∨ o = 4 ∨ o = 5 ∨ o = 6 ∨ ¬(1 ≤ o.toNat ∧ o.toNat ≤ 6) := by
    decide
  rcases split_o o with rfl | rfl | rfl | rfl | rfl | rfl | hh
  case inr.inr.inr.inr.inr.inr =>
    refine .inr (.inr (.inr (.inr (.inr (.inr ⟨hh, ?_⟩)))))
    simp only [decode, h, maskOf_eq_none o hh]
  all_goals simp [decode, h, maskOf, instrOf]

/-- An operand that decodes fits its field. -/
theorem kszOf_lt (v : Word) : kszOf v < 4 := (v.extractLsb' 4 2).isLt

theorem lenOf_lt (v : Word) : lenOf v < 128 := (v.extractLsb' 8 7).isLt

end Sys2Proof
end

