-- ==== Sys2Proof/Laws/PerInstr.lean ====
section
/-! SUPPORT. A law of every command as syntax: its word is its row of spec/opcode_table.json, whatever its operand
(30_encoding R92, R95). -/

namespace Sys2Proof.Laws.EncodesItsRow

set_option Elab.async false

/-- The mask and the match of a command's row (R95). -/
def row : Instr → Word × Word
  | .aesKeyexp _ => (0xFFFFFFCF, 0x00000001)
  | .aesEnc => (0xFFFFFFFF, 0x00000002)
  | .aesDec => (0xFFFFFFFF, 0x00000003)
  | .shaInit => (0xFFFFFFFF, 0x00000004)
  | .shaUpdate _ => (0xFFFF80FF, 0x00000005)
  | .shaFinal => (0xFFFFFFFF, 0x00000006)

/-- The word of a well-formed command has the bits its row fixes. -/
def Statement (i : Instr) : Prop := i.wellFormed = true → encode i &&& (row i).1 = (row i).2

theorem aesKeyexp (ksz : Nat) : Statement (.aesKeyexp ksz) := by
  intro h
  have hk : ksz < 4 := by simpa [Instr.wellFormed] using h
  interval_cases ksz <;> rfl

theorem aesEnc : Statement .aesEnc := fun _ => rfl

theorem aesDec : Statement .aesDec := fun _ => rfl

theorem shaInit : Statement .shaInit := fun _ => rfl

theorem shaUpdate (len : Nat) : Statement (.shaUpdate len) := by
  intro h
  have hl : len < 128 := by simpa [Instr.wellFormed] using h
  have all : ∀ n < 128, encode (.shaUpdate n) &&& 0xFFFF80FF = 0x00000005 := by decide +kernel
  exact all len hl

theorem shaFinal : Statement .shaFinal := fun _ => rfl

end Sys2Proof.Laws.EncodesItsRow
end

