-- ==== Sys2Proof/Laws/Sha.lean ====
section
/-! SUPPORT. What the context operations do to the fill length, the bit length and the context state, said once
(43_sha_commands R180 to R183), so that no proof unfolds them for these. -/

namespace Sys2Proof.Machine

set_option Elab.async false

/-- `AppendByte` of a byte that does not fill the buffer (R180). -/
theorem appendByte_of_lt (x : Byte) (c : ShaContext) (h : c.fill + 1 < 64) :
    appendByte x c = ({ c with buf := c.buf.setIfInBounds c.fill x, fill := c.fill + 1 }, false) := by
  rw [appendByte, if_neg (by omega)]

/-- `AppendByte` of the byte that fills the buffer: one compression of the full buffer, which is then empty (R180). -/
theorem appendByte_of_eq (x : Byte) (c : ShaContext) (h : c.fill + 1 = 64) :
    appendByte x c =
      ({ c with
          buf := c.buf.setIfInBounds c.fill x, fill := 0, h := compress c.h (c.buf.setIfInBounds c.fill x) }, true) := by
  rw [appendByte, if_pos h]

/-- A message byte that does not fill the buffer only lands in it (R182). -/
theorem updateByte_of_lt (c : ShaContext) (x : Byte) (h : c.fill + 1 < 64) :
    updateByte c x = { c with buf := c.buf.setIfInBounds c.fill x, fill := c.fill + 1 } := by
  rw [updateByte, appendByte_of_lt x c h]; rfl

/-- The message byte that fills the buffer: one compression, and 512 more bits (R182). -/
theorem updateByte_of_eq (c : ShaContext) (x : Byte) (h : c.fill + 1 = 64) :
    updateByte c x =
      { c with
        buf := c.buf.setIfInBounds c.fill x, fill := 0, bitlen := c.bitlen + 512
        h := compress c.h (c.buf.setIfInBounds c.fill x) } := by
  rw [updateByte, appendByte_of_eq x c h]; rfl

/-- Adding 512 keeps a whole number of blocks, the wrap at 2^64 too (R186). -/
theorem bitlen_add_512 (b : BitVec 64) : (b + 512).toNat % 512 = b.toNat % 512 := by
  have h512 : (512 : BitVec 64).toNat = 512 := rfl
  rw [BitVec.toNat_add, h512]; omega

/-- Message bytes keep the fill below 64 and the context state, and count whole blocks (R182). -/
theorem updateByte_bounds (c : ShaContext) (x : Byte) (h : c.fill < 64) :
    (updateByte c x).fill < 64 ∧ (updateByte c x).state = c.state ∧
      (updateByte c x).bitlen.toNat % 512 = c.bitlen.toNat % 512 := by
  by_cases hf : c.fill + 1 = 64
  · rw [updateByte_of_eq c x hf]
    exact ⟨Nat.zero_lt_succ 63, rfl, bitlen_add_512 c.bitlen⟩
  · rw [updateByte_of_lt c x (by omega)]
    exact ⟨(by omega : c.fill + 1 < 64), rfl, rfl⟩

/-- The same of a whole SHA.UPDATE (R182). -/
theorem updateContext_bounds (m : List Byte) (c : ShaContext) (h : c.fill < 64) :
    (updateContext m c).fill < 64 ∧ (updateContext m c).state = c.state ∧
      (updateContext m c).bitlen.toNat % 512 = c.bitlen.toNat % 512 := by
  induction m generalizing c with
  | nil => exact ⟨h, rfl, rfl⟩
  | cons x m ih =>
    obtain ⟨hf, hs, hb⟩ := updateByte_bounds c x h
    obtain ⟨hf', hs', hb'⟩ := ih (updateByte c x) hf
    exact ⟨hf', hs'.trans hs, hb'.trans hb⟩

/-- Two updates one after the other are one update of both messages. -/
theorem updateContext_append (a b : List Byte) (c : ShaContext) :
    updateContext (a ++ b) c = updateContext b (updateContext a c) := by
  simp [updateContext]

/-- The fresh context of SHA.INIT (R181). -/
theorem initContext_bounds : initContext.fill = 0 ∧ initContext.bitlen = 0 ∧ initContext.state = .active :=
  ⟨rfl, rfl, rfl⟩

/-- Padding never touches the bit length or the context state (R183). -/
theorem padByte_frame (x : Byte) (c : ShaContext) :
    (padByte x c).bitlen = c.bitlen ∧ (padByte x c).state = c.state := by
  unfold padByte appendByte
  split <;> exact ⟨rfl, rfl⟩

theorem zeroFill_frame (fuel : Nat) (c : ShaContext) :
    (zeroFill fuel c).bitlen = c.bitlen ∧ (zeroFill fuel c).state = c.state := by
  induction fuel generalizing c with
  | zero => exact ⟨rfl, rfl⟩
  | succ fuel ih =>
    rw [zeroFill]
    split
    · exact ⟨rfl, rfl⟩
    · obtain ⟨hb, hs⟩ := ih (padByte 0x00 c)
      exact ⟨hb.trans (padByte_frame _ c).1, hs.trans (padByte_frame _ c).2⟩

/-- The fill after one padding byte (R180). -/
theorem padByte_fill (x : Byte) (c : ShaContext) :
    (padByte x c).fill = if c.fill + 1 = 64 then 0 else c.fill + 1 := by
  unfold padByte appendByte
  split <;> rfl

/-- The zero fill reaches 56 within 64 passes, from any fill a context can have, so bounding it changes nothing (R183). -/
theorem zeroFill_fill (fuel : Nat) (c : ShaContext) (h : c.fill < 64) (hf : (120 - c.fill) % 64 ≤ fuel) :
    (zeroFill fuel c).fill = 56 := by
  induction fuel generalizing c with
  | zero => rw [zeroFill]; omega
  | succ fuel ih =>
    rw [zeroFill]
    split
    · assumption
    · have hp := padByte_fill 0x00 c
      apply ih <;> rw [hp] <;> split <;> omega

/-- The context SHA.FINAL leaves (R183). -/
theorem finalContext_bounds (c : ShaContext) :
    (finalContext c).fill = 0 ∧ (finalContext c).state = .finalized ∧
      (finalContext c).bitlen = c.bitlen + BitVec.ofNat 64 (8 * c.fill) := by
  simp only [finalContext, zeroFill_frame, padByte_frame, and_self]

end Sys2Proof.Machine
end

