-- ==== Sys2Proof/Laws/State.lean ====
section
/-! SUPPORT. One lemma per field per update of the state, so that no proof unfolds a record update. -/

namespace Sys2Proof.Machine

set_option Elab.async false

@[simp] theorem raiseCmdError_ie (c : ErrCode) (s : State) : (raiseCmdError c s).ie = s.ie := rfl
@[simp] theorem raiseCmdError_done (c : ErrCode) (s : State) : (raiseCmdError c s).done = s.done := rfl
@[simp] theorem raiseCmdError_err (c : ErrCode) (s : State) : (raiseCmdError c s).err = true := rfl
@[simp] theorem raiseCmdError_errcode (c : ErrCode) (s : State) : (raiseCmdError c s).errcode = c := rfl
@[simp] theorem raiseCmdError_key (c : ErrCode) (s : State) : (raiseCmdError c s).key = s.key := rfl
@[simp] theorem raiseCmdError_aesDin (c : ErrCode) (s : State) : (raiseCmdError c s).aesDin = s.aesDin := rfl
@[simp] theorem raiseCmdError_aesDout (c : ErrCode) (s : State) : (raiseCmdError c s).aesDout = s.aesDout := rfl
@[simp] theorem raiseCmdError_shaDin (c : ErrCode) (s : State) : (raiseCmdError c s).shaDin = s.shaDin := rfl
@[simp] theorem raiseCmdError_cipher (c : ErrCode) (s : State) : (raiseCmdError c s).cipher = s.cipher := rfl
@[simp] theorem raiseCmdError_sha (c : ErrCode) (s : State) : (raiseCmdError c s).sha = s.sha := rfl
@[simp] theorem raiseCmdError_inflight (c : ErrCode) (s : State) : (raiseCmdError c s).inflight = s.inflight := rfl
@[simp] theorem raiseCmdError_resetHeld (c : ErrCode) (s : State) : (raiseCmdError c s).resetHeld = s.resetHeld := rfl
@[simp] theorem raiseCmdError_turn (c : ErrCode) (s : State) : (raiseCmdError c s).turn = s.turn := rfl
@[simp] theorem raiseCmdError_events (c : ErrCode) (s : State) : (raiseCmdError c s).events = s.events := rfl
@[simp] theorem raiseCmdError_response (c : ErrCode) (s : State) : (raiseCmdError c s).response = s.response := rfl
@[simp] theorem raiseCmdError_draws (c : ErrCode) (s : State) : (raiseCmdError c s).draws = s.draws := rfl

@[simp] theorem clearErr_ie (s : State) : (clearErr s).ie = s.ie := rfl
@[simp] theorem clearErr_done (s : State) : (clearErr s).done = s.done := rfl
@[simp] theorem clearErr_err (s : State) : (clearErr s).err = false := rfl
@[simp] theorem clearErr_errcode (s : State) : (clearErr s).errcode = .none := rfl
@[simp] theorem clearErr_key (s : State) : (clearErr s).key = s.key := rfl
@[simp] theorem clearErr_aesDin (s : State) : (clearErr s).aesDin = s.aesDin := rfl
@[simp] theorem clearErr_aesDout (s : State) : (clearErr s).aesDout = s.aesDout := rfl
@[simp] theorem clearErr_shaDin (s : State) : (clearErr s).shaDin = s.shaDin := rfl
@[simp] theorem clearErr_cipher (s : State) : (clearErr s).cipher = s.cipher := rfl
@[simp] theorem clearErr_sha (s : State) : (clearErr s).sha = s.sha := rfl
@[simp] theorem clearErr_inflight (s : State) : (clearErr s).inflight = s.inflight := rfl
@[simp] theorem clearErr_resetHeld (s : State) : (clearErr s).resetHeld = s.resetHeld := rfl
@[simp] theorem clearErr_turn (s : State) : (clearErr s).turn = s.turn := rfl
@[simp] theorem clearErr_events (s : State) : (clearErr s).events = s.events := rfl
@[simp] theorem clearErr_response (s : State) : (clearErr s).response = s.response := rfl
@[simp] theorem clearErr_draws (s : State) : (clearErr s).draws = s.draws := rfl

@[simp] theorem clearDone_ie (s : State) : (clearDone s).ie = s.ie := rfl
@[simp] theorem clearDone_done (s : State) : (clearDone s).done = false := rfl
@[simp] theorem clearDone_err (s : State) : (clearDone s).err = s.err := rfl
@[simp] theorem clearDone_errcode (s : State) : (clearDone s).errcode = s.errcode := rfl
@[simp] theorem clearDone_key (s : State) : (clearDone s).key = s.key := rfl
@[simp] theorem clearDone_aesDin (s : State) : (clearDone s).aesDin = s.aesDin := rfl
@[simp] theorem clearDone_aesDout (s : State) : (clearDone s).aesDout = s.aesDout := rfl
@[simp] theorem clearDone_shaDin (s : State) : (clearDone s).shaDin = s.shaDin := rfl
@[simp] theorem clearDone_cipher (s : State) : (clearDone s).cipher = s.cipher := rfl
@[simp] theorem clearDone_sha (s : State) : (clearDone s).sha = s.sha := rfl
@[simp] theorem clearDone_inflight (s : State) : (clearDone s).inflight = s.inflight := rfl
@[simp] theorem clearDone_resetHeld (s : State) : (clearDone s).resetHeld = s.resetHeld := rfl
@[simp] theorem clearDone_turn (s : State) : (clearDone s).turn = s.turn := rfl
@[simp] theorem clearDone_events (s : State) : (clearDone s).events = s.events := rfl
@[simp] theorem clearDone_response (s : State) : (clearDone s).response = s.response := rfl
@[simp] theorem clearDone_draws (s : State) : (clearDone s).draws = s.draws := rfl

@[simp] theorem accept_ie (c : Inflight) (s : State) : (accept c s).ie = s.ie := rfl
@[simp] theorem accept_done (c : Inflight) (s : State) : (accept c s).done = false := rfl
@[simp] theorem accept_err (c : Inflight) (s : State) : (accept c s).err = s.err := rfl
@[simp] theorem accept_errcode (c : Inflight) (s : State) : (accept c s).errcode = s.errcode := rfl
@[simp] theorem accept_key (c : Inflight) (s : State) : (accept c s).key = s.key := rfl
@[simp] theorem accept_aesDin (c : Inflight) (s : State) : (accept c s).aesDin = s.aesDin := rfl
@[simp] theorem accept_aesDout (c : Inflight) (s : State) : (accept c s).aesDout = s.aesDout := rfl
@[simp] theorem accept_shaDin (c : Inflight) (s : State) : (accept c s).shaDin = s.shaDin := rfl
@[simp] theorem accept_cipher (c : Inflight) (s : State) : (accept c s).cipher = s.cipher := rfl
@[simp] theorem accept_sha (c : Inflight) (s : State) : (accept c s).sha = s.sha := rfl
@[simp] theorem accept_inflight (c : Inflight) (s : State) : (accept c s).inflight = some c := rfl
@[simp] theorem accept_resetHeld (c : Inflight) (s : State) : (accept c s).resetHeld = s.resetHeld := rfl
@[simp] theorem accept_turn (c : Inflight) (s : State) : (accept c s).turn = s.turn := rfl
@[simp] theorem accept_events (c : Inflight) (s : State) : (accept c s).events = s.events := rfl
@[simp] theorem accept_response (c : Inflight) (s : State) : (accept c s).response = s.response := rfl
@[simp] theorem accept_draws (c : Inflight) (s : State) : (accept c s).draws = s.draws := rfl

@[simp] theorem retire_ie (s : State) : (retire s).ie = s.ie := rfl
@[simp] theorem retire_done (s : State) : (retire s).done = true := rfl
@[simp] theorem retire_err (s : State) : (retire s).err = s.err := rfl
@[simp] theorem retire_errcode (s : State) : (retire s).errcode = s.errcode := rfl
@[simp] theorem retire_key (s : State) : (retire s).key = s.key := rfl
@[simp] theorem retire_aesDin (s : State) : (retire s).aesDin = s.aesDin := rfl
@[simp] theorem retire_aesDout (s : State) : (retire s).aesDout = s.aesDout := rfl
@[simp] theorem retire_shaDin (s : State) : (retire s).shaDin = s.shaDin := rfl
@[simp] theorem retire_cipher (s : State) : (retire s).cipher = s.cipher := rfl
@[simp] theorem retire_sha (s : State) : (retire s).sha = s.sha := rfl
@[simp] theorem retire_inflight (s : State) : (retire s).inflight = none := rfl
@[simp] theorem retire_resetHeld (s : State) : (retire s).resetHeld = s.resetHeld := rfl
@[simp] theorem retire_turn (s : State) : (retire s).turn = s.turn := rfl
@[simp] theorem retire_events (s : State) : (retire s).events = s.events := rfl
@[simp] theorem retire_response (s : State) : (retire s).response = s.response := rfl
@[simp] theorem retire_draws (s : State) : (retire s).draws = s.draws := rfl

@[simp] theorem respond_ie (r : BusResponse) (s : State) : (respond r s).ie = s.ie := rfl
@[simp] theorem respond_done (r : BusResponse) (s : State) : (respond r s).done = s.done := rfl
@[simp] theorem respond_err (r : BusResponse) (s : State) : (respond r s).err = s.err := rfl
@[simp] theorem respond_errcode (r : BusResponse) (s : State) : (respond r s).errcode = s.errcode := rfl
@[simp] theorem respond_key (r : BusResponse) (s : State) : (respond r s).key = s.key := rfl
@[simp] theorem respond_aesDin (r : BusResponse) (s : State) : (respond r s).aesDin = s.aesDin := rfl
@[simp] theorem respond_aesDout (r : BusResponse) (s : State) : (respond r s).aesDout = s.aesDout := rfl
@[simp] theorem respond_shaDin (r : BusResponse) (s : State) : (respond r s).shaDin = s.shaDin := rfl
@[simp] theorem respond_cipher (r : BusResponse) (s : State) : (respond r s).cipher = s.cipher := rfl
@[simp] theorem respond_sha (r : BusResponse) (s : State) : (respond r s).sha = s.sha := rfl
@[simp] theorem respond_inflight (r : BusResponse) (s : State) : (respond r s).inflight = s.inflight := rfl
@[simp] theorem respond_resetHeld (r : BusResponse) (s : State) : (respond r s).resetHeld = s.resetHeld := rfl
@[simp] theorem respond_turn (r : BusResponse) (s : State) : (respond r s).turn = s.turn := rfl
@[simp] theorem respond_events (r : BusResponse) (s : State) : (respond r s).events = s.events := rfl
@[simp] theorem respond_response (r : BusResponse) (s : State) : (respond r s).response = r := rfl
@[simp] theorem respond_draws (r : BusResponse) (s : State) : (respond r s).draws = s.draws := rfl

@[simp] theorem respondAny32_ie (s : State) : (respondAny32 s).ie = s.ie := rfl
@[simp] theorem respondAny32_done (s : State) : (respondAny32 s).done = s.done := rfl
@[simp] theorem respondAny32_err (s : State) : (respondAny32 s).err = s.err := rfl
@[simp] theorem respondAny32_errcode (s : State) : (respondAny32 s).errcode = s.errcode := rfl
@[simp] theorem respondAny32_key (s : State) : (respondAny32 s).key = s.key := rfl
@[simp] theorem respondAny32_aesDin (s : State) : (respondAny32 s).aesDin = s.aesDin := rfl
@[simp] theorem respondAny32_aesDout (s : State) : (respondAny32 s).aesDout = s.aesDout := rfl
@[simp] theorem respondAny32_shaDin (s : State) : (respondAny32 s).shaDin = s.shaDin := rfl
@[simp] theorem respondAny32_cipher (s : State) : (respondAny32 s).cipher = s.cipher := rfl
@[simp] theorem respondAny32_sha (s : State) : (respondAny32 s).sha = s.sha := rfl
@[simp] theorem respondAny32_inflight (s : State) : (respondAny32 s).inflight = s.inflight := rfl
@[simp] theorem respondAny32_resetHeld (s : State) : (respondAny32 s).resetHeld = s.resetHeld := rfl
@[simp] theorem respondAny32_turn (s : State) : (respondAny32 s).turn = s.turn := rfl
@[simp] theorem respondAny32_events (s : State) : (respondAny32 s).events = s.events := rfl
@[simp] theorem respondAny32_response (s : State) : (respondAny32 s).response = .readData (Config.any32 s.draws) := rfl
@[simp] theorem respondAny32_draws (s : State) : (respondAny32 s).draws = s.draws + 1 := rfl

@[simp] theorem hardReset_ie (s : State) : (hardReset s).ie = State.reset.ie := rfl
@[simp] theorem hardReset_done (s : State) : (hardReset s).done = State.reset.done := rfl
@[simp] theorem hardReset_err (s : State) : (hardReset s).err = State.reset.err := rfl
@[simp] theorem hardReset_errcode (s : State) : (hardReset s).errcode = State.reset.errcode := rfl
@[simp] theorem hardReset_key (s : State) : (hardReset s).key = State.reset.key := rfl
@[simp] theorem hardReset_aesDin (s : State) : (hardReset s).aesDin = State.reset.aesDin := rfl
@[simp] theorem hardReset_aesDout (s : State) : (hardReset s).aesDout = State.reset.aesDout := rfl
@[simp] theorem hardReset_shaDin (s : State) : (hardReset s).shaDin = State.reset.shaDin := rfl
@[simp] theorem hardReset_cipher (s : State) : (hardReset s).cipher = State.reset.cipher := rfl
@[simp] theorem hardReset_sha (s : State) : (hardReset s).sha = State.reset.sha := rfl
@[simp] theorem hardReset_inflight (s : State) : (hardReset s).inflight = State.reset.inflight := rfl
@[simp] theorem hardReset_resetHeld (s : State) : (hardReset s).resetHeld = s.resetHeld := rfl
@[simp] theorem hardReset_turn (s : State) : (hardReset s).turn = s.turn := rfl
@[simp] theorem hardReset_events (s : State) : (hardReset s).events = s.events := rfl
@[simp] theorem hardReset_response (s : State) : (hardReset s).response = s.response := rfl
@[simp] theorem hardReset_draws (s : State) : (hardReset s).draws = s.draws := rfl

/-! A write to STATUS as the three fields it can clear (10_state R26). -/

@[simp] theorem writeStatus_done (v : Word) (s : State) : (writeStatus v s).done = (s.done && !v.getLsbD 1) := by
  unfold writeStatus; cases v.getLsbD 1 <;> cases v.getLsbD 2 <;> simp
@[simp] theorem writeStatus_err (v : Word) (s : State) : (writeStatus v s).err = (s.err && !v.getLsbD 2) := by
  unfold writeStatus; cases v.getLsbD 1 <;> cases v.getLsbD 2 <;> simp
@[simp] theorem writeStatus_errcode (v : Word) (s : State) :
    (writeStatus v s).errcode = if v.getLsbD 2 then .none else s.errcode := by
  unfold writeStatus; cases v.getLsbD 1 <;> cases v.getLsbD 2 <;> simp
@[simp] theorem writeStatus_ie (v : Word) (s : State) : (writeStatus v s).ie = s.ie := by
  unfold writeStatus; cases v.getLsbD 1 <;> cases v.getLsbD 2 <;> rfl
@[simp] theorem writeStatus_key (v : Word) (s : State) : (writeStatus v s).key = s.key := by
  unfold writeStatus; cases v.getLsbD 1 <;> cases v.getLsbD 2 <;> rfl
@[simp] theorem writeStatus_aesDin (v : Word) (s : State) : (writeStatus v s).aesDin = s.aesDin := by
  unfold writeStatus; cases v.getLsbD 1 <;> cases v.getLsbD 2 <;> rfl
@[simp] theorem writeStatus_aesDout (v : Word) (s : State) : (writeStatus v s).aesDout = s.aesDout := by
  unfold writeStatus; cases v.getLsbD 1 <;> cases v.getLsbD 2 <;> rfl
@[simp] theorem writeStatus_shaDin (v : Word) (s : State) : (writeStatus v s).shaDin = s.shaDin := by
  unfold writeStatus; cases v.getLsbD 1 <;> cases v.getLsbD 2 <;> rfl
@[simp] theorem writeStatus_cipher (v : Word) (s : State) : (writeStatus v s).cipher = s.cipher := by
  unfold writeStatus; cases v.getLsbD 1 <;> cases v.getLsbD 2 <;> rfl
@[simp] theorem writeStatus_sha (v : Word) (s : State) : (writeStatus v s).sha = s.sha := by
  unfold writeStatus; cases v.getLsbD 1 <;> cases v.getLsbD 2 <;> rfl
@[simp] theorem writeStatus_inflight (v : Word) (s : State) : (writeStatus v s).inflight = s.inflight := by
  unfold writeStatus; cases v.getLsbD 1 <;> cases v.getLsbD 2 <;> rfl
@[simp] theorem writeStatus_resetHeld (v : Word) (s : State) : (writeStatus v s).resetHeld = s.resetHeld := by
  unfold writeStatus; cases v.getLsbD 1 <;> cases v.getLsbD 2 <;> rfl
@[simp] theorem writeStatus_turn (v : Word) (s : State) : (writeStatus v s).turn = s.turn := by
  unfold writeStatus; cases v.getLsbD 1 <;> cases v.getLsbD 2 <;> rfl
@[simp] theorem writeStatus_events (v : Word) (s : State) : (writeStatus v s).events = s.events := by
  unfold writeStatus; cases v.getLsbD 1 <;> cases v.getLsbD 2 <;> rfl
@[simp] theorem writeStatus_response (v : Word) (s : State) : (writeStatus v s).response = s.response := by
  unfold writeStatus; cases v.getLsbD 1 <;> cases v.getLsbD 2 <;> rfl
@[simp] theorem writeStatus_draws (v : Word) (s : State) : (writeStatus v s).draws = s.draws := by
  unfold writeStatus; cases v.getLsbD 1 <;> cases v.getLsbD 2 <;> rfl

/-! What no register write changes (20_memory R62). -/

@[simp] theorem writeRegister_aesDout (r : Reg) (v : Word) (s : State) : (writeRegister r v s).aesDout = s.aesDout := by
  cases r <;> simp [writeRegister]
@[simp] theorem writeRegister_cipher (r : Reg) (v : Word) (s : State) : (writeRegister r v s).cipher = s.cipher := by
  cases r <;> simp [writeRegister]
@[simp] theorem writeRegister_sha (r : Reg) (v : Word) (s : State) : (writeRegister r v s).sha = s.sha := by
  cases r <;> simp [writeRegister]
@[simp] theorem writeRegister_inflight (r : Reg) (v : Word) (s : State) : (writeRegister r v s).inflight = s.inflight := by
  cases r <;> simp [writeRegister]
@[simp] theorem writeRegister_resetHeld (r : Reg) (v : Word) (s : State) : (writeRegister r v s).resetHeld = s.resetHeld := by
  cases r <;> simp [writeRegister]
@[simp] theorem writeRegister_turn (r : Reg) (v : Word) (s : State) : (writeRegister r v s).turn = s.turn := by
  cases r <;> simp [writeRegister]
@[simp] theorem writeRegister_events (r : Reg) (v : Word) (s : State) : (writeRegister r v s).events = s.events := by
  cases r <;> simp [writeRegister]
@[simp] theorem writeRegister_response (r : Reg) (v : Word) (s : State) : (writeRegister r v s).response = s.response := by
  cases r <;> simp [writeRegister]
@[simp] theorem writeRegister_draws (r : Reg) (v : Word) (s : State) : (writeRegister r v s).draws = s.draws := by
  cases r <;> simp [writeRegister]

/-- What BUSY is after each of them. -/
@[simp] theorem accept_busy (c : Inflight) (s : State) : (accept c s).busy = true := rfl
@[simp] theorem retire_busy (s : State) : (retire s).busy = false := rfl
@[simp] theorem raiseCmdError_busy (c : ErrCode) (s : State) : (raiseCmdError c s).busy = s.busy := rfl

end Sys2Proof.Machine
end

