-- ==== Sys2Proof/Laws/Step.lean ====
section
/-! SUPPORT. Said once: everything each shared operation, each command and one step can do. Proofs cite these instead of
unfolding the machine. -/

namespace Sys2Proof.Machine

set_option Elab.async false

/-! ## Registers and their offsets -/

/-- The register map both ways: a register's offset is aligned and names it (10_state R21). -/
@[simp] theorem regOfOffset_offset (r : Reg) : regOfOffset r.offset = r := by
  cases r <;> first | rfl | (rename_i k; revert k; decide)

@[simp] theorem accessOk_offset (r : Reg) : accessOk r.offset 4 = true := by
  cases r <;> first | rfl | (rename_i k; revert k; decide)

/-- An aligned offset is the offset of the register it names. -/
theorem offset_regOfOffset (off : BitVec 8) (h : off.toNat % 4 = 0) : (regOfOffset off).offset = off := by
  revert off; decide +kernel

/-! ## Acceptance -/

/-- What the checks of 60_exceptions R203 establish for a command they let through in `s`: its record is the snapshot of
`s`, and the state it needs is there. -/
def Accepted (c : Inflight) (s : State) : Prop :=
  match c with
  | .keyexp _ keys => keys = s.key
  | .enc d => d = s.aesDin ∧ s.cipher.keyvalid = true
  | .dec d => d = s.aesDin ∧ s.cipher.keyvalid = true
  | .init => True
  | .update n d => n ≤ 64 ∧ d = s.shaDin ∧ s.sha.state = .active
  | .final => s.sha.state = .active

/-- `issue` records an error or accepts, and accepts only an idle CORE's checked command. -/
theorem issue_cases (checked : Except ErrCode Inflight) (s : State) :
    (∃ code, issue checked s = raiseCmdError code s ∧ (code = .busy ∨ checked = .error code)) ∨
    (∃ c, issue checked s = accept c s ∧ checked = .ok c ∧ s.inflight = none) := by
  unfold issue
  split
  · exact .inl ⟨.busy, rfl, .inl rfl⟩
  · rename_i hb
    cases checked with
    | error code => exact .inl ⟨code, rfl, .inr rfl⟩
    | ok c => exact .inr ⟨c, rfl, rfl, by simpa [State.busy] using hb⟩

theorem checkKeyexp_cases (k : Nat) (s : State) :
    checkKeyexp k s = .error .keySize ∨ ∃ z, checkKeyexp k s = .ok (.keyexp z s.key) := by
  unfold checkKeyexp; split <;> simp

theorem checkEnc_cases (s : State) :
    checkEnc s = .error .noKey ∨ (checkEnc s = .ok (.enc s.aesDin) ∧ s.cipher.keyvalid = true) := by
  unfold checkEnc; split <;> simp_all

theorem checkDec_cases (s : State) :
    checkDec s = .error .noKey ∨ (checkDec s = .ok (.dec s.aesDin) ∧ s.cipher.keyvalid = true) := by
  unfold checkDec; split <;> simp_all

theorem checkUpdate_cases (n : Nat) (s : State) :
    checkUpdate n s = .error .len ∨ checkUpdate n s = .error .noCtx ∨
      (checkUpdate n s = .ok (.update n s.shaDin) ∧ n ≤ 64 ∧ s.sha.state = .active) := by
  unfold checkUpdate; split <;> (try split) <;> simp_all

theorem checkFinal_cases (s : State) :
    checkFinal s = .error .noCtx ∨ (checkFinal s = .ok .final ∧ s.sha.state = .active) := by
  unfold checkFinal; split <;> simp_all

/-- In the host's turn a command records a real error or is accepted. -/
theorem exec_host (i : Instr) (s : State) (h : s.turn = .host) :
    (∃ code, exec i s = .next (raiseCmdError code s) ∧ code ≠ .none) ∨
    (∃ c, exec i s = .next (accept c s) ∧ Accepted c s ∧ s.inflight = none) := by
  have via : ∀ checked : Except ErrCode Inflight, checked ≠ .error .none → (∀ c, checked = .ok c → Accepted c s) →
      (∃ code, issue checked s = raiseCmdError code s ∧ code ≠ .none) ∨
      (∃ c, issue checked s = accept c s ∧ Accepted c s ∧ s.inflight = none) := by
    intro checked hne hok
    rcases issue_cases checked s with ⟨code, h1, h2⟩ | ⟨c, h1, h2, h3⟩
    · refine .inl ⟨code, h1, ?_⟩
      rintro rfl
      rcases h2 with h2 | h2
      · cases h2
      · exact hne h2
    · exact .inr ⟨c, h1, hok c h2, h3⟩
  have lift : ∀ checked : Except ErrCode Inflight, exec i s = .next (issue checked s) → checked ≠ .error .none →
      (∀ c, checked = .ok c → Accepted c s) →
      (∃ code, exec i s = .next (raiseCmdError code s) ∧ code ≠ .none) ∨
      (∃ c, exec i s = .next (accept c s) ∧ Accepted c s ∧ s.inflight = none) := by
    intro checked he hne hok
    rcases via checked hne hok with ⟨code, h1, h2⟩ | ⟨c, h1, h2⟩
    · exact .inl ⟨code, by rw [he, h1], h2⟩
    · exact .inr ⟨c, by rw [he, h1], h2⟩
  cases i with
  | aesKeyexp k =>
    refine lift (checkKeyexp k s) (by simp [exec, execAesKeyexp, h]) ?_ ?_ <;>
      rcases checkKeyexp_cases k s with e | ⟨z, e⟩ <;> simp_all [Accepted]
  | aesEnc =>
    refine lift (checkEnc s) (by simp [exec, execAesEnc, h]) ?_ ?_ <;>
      rcases checkEnc_cases s with e | ⟨e, k⟩ <;> simp_all [Accepted]
  | aesDec =>
    refine lift (checkDec s) (by simp [exec, execAesDec, h]) ?_ ?_ <;>
      rcases checkDec_cases s with e | ⟨e, k⟩ <;> simp_all [Accepted]
  | shaInit =>
    refine lift (.ok .init) (by simp [exec, execShaInit, h]) (by simp) ?_
    rintro c hc; cases hc; trivial
  | shaUpdate n =>
    refine lift (checkUpdate n s) (by simp [exec, execShaUpdate, h]) ?_ ?_ <;>
      rcases checkUpdate_cases n s with e | e | ⟨e, k, l⟩ <;> simp_all [Accepted]
  | shaFinal =>
    refine lift (checkFinal s) (by simp [exec, execShaFinal, h]) ?_ ?_ <;>
      rcases checkFinal_cases s with e | ⟨e, k⟩ <;> simp_all [Accepted]

/-! ## Completion -/

/-- What an installed key is besides its schedule (41_aes_commands R142). -/
@[simp] theorem installKey_keyvalid (k : KeySize) (keys : Vector Word 8) : (installKey k keys).keyvalid = true := by
  simp only [installKey]
@[simp] theorem installKey_ksz (k : KeySize) (keys : Vector Word 8) : (installKey k keys).ksz = k := by
  simp only [installKey]
@[simp] theorem installKey_nk (k : KeySize) (keys : Vector Word 8) : (installKey k keys).nk = k.nk := by
  simp only [installKey]
@[simp] theorem installKey_nr (k : KeySize) (keys : Vector Word 8) : (installKey k keys).nr = k.nr := by
  simp only [installKey]

/-- What the completion of a command in flight writes, before the command is retired (70_reset_and_hazards R238). -/
def completed (c : Inflight) (s : State) : State :=
  match c with
  | .keyexp k keys => { s with cipher := installKey k keys }
  | .enc d => { s with aesDout := encryptWords s.cipher d }
  | .dec d => { s with aesDout := decryptWords s.cipher d }
  | .init => { s with sha := initContext }
  | .update n d => { s with sha := updateContext (messageBytes n d) s.sha }
  | .final => { s with sha := finalContext s.sha }

@[simp] theorem completed_ie (c : Inflight) (s : State) : (completed c s).ie = s.ie := by cases c <;> simp only [completed]
@[simp] theorem completed_done (c : Inflight) (s : State) : (completed c s).done = s.done := by cases c <;> simp only [completed]
@[simp] theorem completed_err (c : Inflight) (s : State) : (completed c s).err = s.err := by cases c <;> simp only [completed]
@[simp] theorem completed_errcode (c : Inflight) (s : State) : (completed c s).errcode = s.errcode := by cases c <;> simp only [completed]
@[simp] theorem completed_key (c : Inflight) (s : State) : (completed c s).key = s.key := by cases c <;> simp only [completed]
@[simp] theorem completed_aesDin (c : Inflight) (s : State) : (completed c s).aesDin = s.aesDin := by cases c <;> simp only [completed]
@[simp] theorem completed_shaDin (c : Inflight) (s : State) : (completed c s).shaDin = s.shaDin := by cases c <;> simp only [completed]
@[simp] theorem completed_inflight (c : Inflight) (s : State) : (completed c s).inflight = s.inflight := by cases c <;> simp only [completed]
@[simp] theorem completed_resetHeld (c : Inflight) (s : State) : (completed c s).resetHeld = s.resetHeld := by cases c <;> simp only [completed]
@[simp] theorem completed_turn (c : Inflight) (s : State) : (completed c s).turn = s.turn := by cases c <;> simp only [completed]
@[simp] theorem completed_events (c : Inflight) (s : State) : (completed c s).events = s.events := by cases c <;> simp only [completed]
@[simp] theorem completed_response (c : Inflight) (s : State) : (completed c s).response = s.response := by cases c <;> simp only [completed]
@[simp] theorem completed_draws (c : Inflight) (s : State) : (completed c s).draws = s.draws := by cases c <;> simp only [completed]

/-- Only AES.KEYEXP's completion writes the installed key. -/
theorem completed_cipher (c : Inflight) (s : State) :
    (completed c s).cipher = match c with | .keyexp k keys => installKey k keys | _ => s.cipher := by cases c <;> simp only [completed]

/-- Only the completions of AES.ENC and AES.DEC write AES_DOUT. -/
theorem completed_aesDout (c : Inflight) (s : State) :
    (completed c s).aesDout =
      match c with | .enc d => encryptWords s.cipher d | .dec d => decryptWords s.cipher d | _ => s.aesDout := by
  cases c <;> simp only [completed]

/-- Only the completions of the SHA commands write the context. -/
theorem completed_sha (c : Inflight) (s : State) :
    (completed c s).sha =
      match c with
      | .init => initContext
      | .update n d => updateContext (messageBytes n d) s.sha
      | .final => finalContext s.sha
      | _ => s.sha := by
  cases c <;> simp only [completed]

/-- In the engine's turn the command in flight completes. -/
theorem exec_engine (c : Inflight) (s : State) (ht : s.turn = .engine) (hc : s.inflight = some c) :
    exec c.instr s = .next (retire (completed c s)) := by
  cases c <;> simp [Inflight.instr, exec, execAesKeyexp, execAesEnc, execAesDec, execShaInit, execShaUpdate,
    execShaFinal, ht, hc, completed]

/-- The engine's move with a command in flight and reset released. -/
theorem engineStep_inflight {s : State} {c : Inflight} (hr : s.resetHeld = false) (hc : s.inflight = some c) :
    engineStep s = .next (retire (completed c { s with turn := .engine })) := by
  unfold engineStep
  rw [hc]
  simp only [hr, Bool.false_eq_true, if_false]
  rw [← hc, ← hr]
  exact exec_engine c { s with turn := .engine } rfl hc

/-- The engine's move: nothing, or the completion of what is in flight. -/
theorem engineStep_cases {s t : State} (h : engineStep s = .next t) :
    (t = s ∧ (s.inflight = none ∨ s.resetHeld = true)) ∨
    ∃ c, s.inflight = some c ∧ s.resetHeld = false ∧ t = retire (completed c { s with turn := .engine }) := by
  unfold engineStep at h
  split at h
  · rename_i c hc
    split at h
    · rename_i hr
      cases h; exact .inl ⟨rfl, .inr hr⟩
    · rename_i hr
      rw [exec_engine c { s with turn := .engine } rfl hc] at h
      cases h; exact .inr ⟨c, hc, by simpa using hr, rfl⟩
  · rename_i hc
    cases h; exact .inl ⟨rfl, .inl hc⟩

/-! ## Host accesses -/

/-- A word written to CMD: a real error recorded, or a command accepted. -/
theorem issueWord_cases {v : Word} {s t : State} (h : issueWord v s = .next t) :
    (∃ code, code ≠ .none ∧ t = raiseCmdError code { s with turn := .host }) ∨
    ∃ c, Accepted c s ∧ s.inflight = none ∧ t = accept c { s with turn := .host } := by
  unfold issueWord at h
  split at h
  · rename_i i _
    rcases exec_host i { s with turn := .host } rfl with ⟨code, h1, h2⟩ | ⟨c, h1, h2, h3⟩
    · rw [h1] at h; cases h; exact .inl ⟨code, h2, rfl⟩
    · rw [h1] at h; cases h
      refine .inr ⟨c, ?_, h3, rfl⟩
      cases c <;> exact h2
  · cases h
    rcases issue_cases (.error .illegal) { s with turn := .host } with ⟨code, h1, h2⟩ | ⟨c, _, h2, _⟩
    · refine .inl ⟨code, ?_, h1⟩
      rintro rfl
      rcases h2 with h2 | h2 <;> cases h2
    · cases h2

/-- A refused access is answered and changes nothing. -/
theorem accessRefused_answers (op : BusOp) (s : State) :
    ∃ r d, accessRefused op s = { s with response := r, draws := d } := by
  cases op with
  | write v => exact ⟨_, _, rfl⟩
  | read =>
    simp only [accessRefused]
    split_ifs
    · exact ⟨_, _, rfl⟩
    · exact ⟨_, _, rfl⟩
    · exact ⟨_, _, rfl⟩

/-- A host access: an answer and nothing else, or a word issued, or one register written. -/
theorem hostAccess_cases {a : Access} {s t : State} (h : hostAccess a s = .next t) :
    (∃ r d, t = { s with response := r, draws := d }) ∨
    (∃ v, s.resetHeld = false ∧ Event.access a = cmdWrite v ∧ issueWord v (respond .writeDone s) = .next t) ∨
    ∃ r v, s.resetHeld = false ∧ r ≠ .cmd ∧ Event.access a = wrEvent r v ∧
      t = respond .writeDone (writeRegister r v s) := by
  obtain ⟨addr, bytes, op⟩ := a
  unfold hostAccess at h
  split at h
  · cases h; exact .inl ⟨_, _, rfl⟩
  · rename_i off haddr
    simp only at haddr h
    subst haddr
    split at h
    · rename_i hok
      obtain ⟨rfl, hoff⟩ : bytes = 4 ∧ off.toNat % 4 = 0 := by simpa [accessOk] using hok
      split at h
      · cases h
        cases op
        · exact .inl ⟨_, _, rfl⟩
        · exact .inl ⟨_, _, rfl⟩
      · rename_i hr
        have hr : s.resetHeld = false := by simpa using hr
        have heq := offset_regOfOffset off hoff
        unfold accessRegister at h
        split at h
        · cases h
          unfold readRegister
          split
          · exact .inl ⟨_, _, rfl⟩
          · exact .inl ⟨_, _, rfl⟩
        · rename_i v heqr
          refine .inr (.inl ⟨v, hr, ?_, h⟩)
          rw [← heq, heqr]; rfl
        · rename_i v hne
          cases h
          refine .inr (.inr ⟨regOfOffset off, v, hr, fun hc => hne hc, ?_, rfl⟩)
          simp [wrEvent, heq]
    · cases h
      obtain ⟨r, d, he⟩ := accessRefused_answers op s
      exact .inl ⟨r, d, he⟩

/-- A write to CMD, whatever comes after it. -/
theorem step_cmdWrite {s : State} {v : Word} {rest : List Event} (h0 : s.resetHeld = false)
    (h1 : s.events = cmdWrite v :: rest) :
    step s = issueWord v { s with events := rest, response := .writeDone } := by
  simp [step, nextEvent, h1, cmdWrite, takeEvent, hostAccess, h0, accessRegister, respond]

/-- A write to any other register. -/
theorem step_wrEvent {s : State} {r : Reg} {v : Word} {rest : List Event} (h0 : s.resetHeld = false) (hr : r ≠ .cmd)
    (h1 : s.events = wrEvent r v :: rest) :
    step s = .next (respond .writeDone (writeRegister r v { s with events := rest })) := by
  cases r <;> simp_all [step, nextEvent, wrEvent, takeEvent, hostAccess, accessRegister]

/-- A read of any register. -/
theorem step_rdEvent {s : State} {r : Reg} {rest : List Event} (h0 : s.resetHeld = false)
    (h1 : s.events = rdEvent r :: rest) :
    step s = .next (readRegister r { s with events := rest }) := by
  simp [step, nextEvent, h1, rdEvent, takeEvent, hostAccess, h0, accessRegister]

/-! ## One step -/

/-- The engine's moment has come. -/
theorem step_complete {s : State} {rest : List Event} (h : s.events = .complete :: rest) :
    step s = engineStep { s with events := rest } := by
  simp [step, nextEvent, h, takeEvent]

/-- A level of the reset input. -/
theorem step_resetPin {s : State} {b : Bool} {rest : List Event} (h : s.events = .resetPin b :: rest) :
    step s = .next (setResetPin b { s with events := rest }) := by
  simp [step, nextEvent, h, takeEvent]

/-- A run of one step more. -/
theorem run_succ {s t : State} (n : Nat) (h : step s = .next t) : core.run (n + 1) s = core.run n t := by
  simp only [core, Host.Core.run, h]

/-- Everything one step can do: a reset level, the engine's move, or a host access. -/
theorem step_cases {s t : State} (h : step s = .next t) :
    (∃ b rest, s.events = .resetPin b :: rest ∧ t = setResetPin b { s with events := rest }) ∨
    ((s.events = [] ∨ s.events.head? = some .complete) ∧ engineStep { s with events := s.events.tail } = .next t) ∨
    ∃ a rest, s.events = .access a :: rest ∧ hostAccess a { s with events := rest } = .next t := by
  unfold step nextEvent at h
  split at h
  · rename_i he
    refine .inr (.inl ⟨.inl he, ?_⟩)
    rw [← h]
    congr 1
    cases s; simp_all
  · rename_i e rest he
    cases e with
    | access a => exact .inr (.inr ⟨a, rest, he, h⟩)
    | complete => exact .inr (.inl ⟨.inr (by simp [he]), by simpa [he, takeEvent] using h⟩)
    | resetPin b => exact .inl ⟨b, rest, he, by simpa [takeEvent] using h.symm⟩

end Sys2Proof.Machine
end

