-- ==== Sys2Proof/Tests/Slice0.lean ====
section
/-! SUPPORT. The model's own tests. Expected values are the vectors of spec/95_test_vectors.md (section or row named), the
words of 30_encoding R95 and R103 written out, or hand calculation from the rule named. Then, for each obligation with
hypotheses, a state and operands that meet them together. -/

namespace Sys2Proof.Tests

set_option Elab.async false

open Sys2Proof.Machine Sys2Proof.Safety

/-! ## Well-formed terms and words -/

theorem test_wellFormed_refuses_ksz_4 : Instr.wellFormed (.aesKeyexp 4) = false := by decide
theorem test_wellFormed_refuses_len_128 : Instr.wellFormed (.shaUpdate 128) = false := by decide
theorem test_wellFormed_admits_the_largest_fields :
    Instr.wellFormed (.aesKeyexp 3) = true ∧ Instr.wellFormed (.shaUpdate 127) = true := by decide

/-- A word from its fields: bits 31:15, LEN, bits 7:6, KSZ, OPC (R90). -/
def fields (high : BitVec 17) (len : BitVec 7) (low : BitVec 2) (ksz : BitVec 2) (opc : BitVec 4) : Word :=
  high ++ len ++ low ++ ksz ++ opc

theorem test_decode_keyexp_128 : decode (fields 0 0b0000000 0b00 0b00 0b0001) = .ok (.aesKeyexp 0) := by decide
theorem test_decode_keyexp_192 : decode (fields 0 0b0000000 0b00 0b01 0b0001) = .ok (.aesKeyexp 1) := by decide
theorem test_decode_keyexp_256 : decode (fields 0 0b0000000 0b00 0b10 0b0001) = .ok (.aesKeyexp 2) := by decide
theorem test_decode_keyexp_ksz_3 : decode (fields 0 0b0000000 0b00 0b11 0b0001) = .ok (.aesKeyexp 3) := by decide
theorem test_decode_enc : decode (fields 0 0b0000000 0b00 0b00 0b0010) = .ok .aesEnc := by decide
theorem test_decode_dec : decode (fields 0 0b0000000 0b00 0b00 0b0011) = .ok .aesDec := by decide
theorem test_decode_init : decode (fields 0 0b0000000 0b00 0b00 0b0100) = .ok .shaInit := by decide
theorem test_decode_update_0 : decode (fields 0 0b0000000 0b00 0b00 0b0101) = .ok (.shaUpdate 0) := by decide
theorem test_decode_update_64 : decode (fields 0 0b1000000 0b00 0b00 0b0101) = .ok (.shaUpdate 64) := by decide
theorem test_decode_update_65 : decode (fields 0 0b1000001 0b00 0b00 0b0101) = .ok (.shaUpdate 65) := by decide
theorem test_decode_final : decode (fields 0 0b0000000 0b00 0b00 0b0110) = .ok .shaFinal := by decide

/-- OPC 0x0, 0x7 and 0xF (R96; E11). -/
theorem test_decode_illegal_opcodes :
    decode 0x00000000 = .error .illegalOpcode ∧ decode 0x00000007 = .error .illegalOpcode ∧
      decode 0x0000000F = .error .illegalOpcode := by decide

/-- E11's words: LEN on AES.ENC, bit 6 on AES.KEYEXP, bit 15 on SHA.UPDATE; and KSZ on SHA.FINAL (R90). -/
theorem test_decode_reserved_bits :
    decode 0x00000102 = .error .reservedBitSet ∧ decode 0x00000041 = .error .reservedBitSet ∧
      decode 0x00008005 = .error .reservedBitSet ∧ decode 0x00000016 = .error .reservedBitSet := by decide

/-- The words of R103. -/
theorem test_encode_the_notation_words :
    [Instr.aesKeyexp 0, .aesKeyexp 1, .aesKeyexp 2, .aesEnc, .aesDec, .shaInit, .shaUpdate 3, .shaFinal].map encode =
      [0x00000001, 0x00000011, 0x00000021, 0x00000002, 0x00000003, 0x00000004, 0x00000305, 0x00000006] := by decide

/-! ## Packing -/

/-- 00_scope R10: byte 0 is the most significant. -/
theorem test_byte_zero_is_the_most_significant :
    byteOf 0x2b7e1516 0 = 0x2b ∧ byteOf 0x2b7e1516 3 = 0x16 ∧ be32 0x2b 0x7e 0x15 0x16 = 0x2b7e1516 := by decide

/-! ## The AES datapath (95 section 2) -/

/-- The 16 bytes a number spells, first byte leftmost. -/
def block (n : Nat) : Block := Vector.ofFn fun i => BitVec.ofNat 8 (n >>> (8 * (15 - i.val)))

/-- The bytes of a key of `len` bytes, in the same way. -/
def keyOf (len n : Nat) : List Byte := (List.range len).map fun i => BitVec.ofNat 8 (n >>> (8 * (len - 1 - i)))

theorem test_xtime : xtime 0x57 = 0xae ∧ xtime 0xae = 0x47 ∧ xtime 0x80 = 0x1b ∧ xtime 0xff = 0xe5 := by decide
theorem test_gfmul :
    gfmul 0x57 0x13 = 0xfe ∧ gfmul 0x57 0x83 = 0xc1 ∧ gfmul 0x02 0x87 = 0x15 ∧ gfmul 0x0e 0x47 = 0x87 ∧
      gfmul 0x09 0xff = 0x46 ∧ gfmul 0x0d 0x0d = 0x51 := by decide +kernel
theorem test_sbox :
    sbox 0x00 = 0x63 ∧ sbox 0x53 = 0xed ∧ sbox 0xff = 0x16 ∧ invSbox 0x00 = 0x52 ∧ invSbox 0x63 = 0x00 ∧
      invSbox 0xff = 0x7d := by decide +kernel
theorem test_shiftRows :
    shiftRows (block 0x000102030405060708090a0b0c0d0e0f) = block 0x00050a0f04090e03080d02070c01060b := by decide +kernel
theorem test_invShiftRows :
    invShiftRows (block 0x000102030405060708090a0b0c0d0e0f) = block 0x000d0a0704010e0b0805020f0c090603 := by decide +kernel
theorem test_mixColumns :
    mixColumns (block 0xdb135345f20a225cd4d4d4d52d26314c) = block 0x8e4da1bc9fdc589dd5d5d7d64d7ebdf8 := by decide +kernel
theorem test_invMixColumns :
    invMixColumns (block 0x8e4da1bc9fdc589dd5d5d7d64d7ebdf8) = block 0xdb135345f20a225cd4d4d4d52d26314c := by
  decide +kernel
theorem test_rotWord_subWord : rotWord 0x09cf4f3c = 0xcf4f3c09 ∧ subWord 0xcf4f3c09 = 0x8a84eb01 := by decide +kernel

/-- Round 1 of section 2.4, then the first steps back of R141. -/
theorem test_round_one_of_V1 :
    addRoundKey (mixColumns (shiftRows (subBytes (block 0x193de3bea0f4e22b9ac68d2ae9f84808))))
      (block 0xa0fafe1788542cb123a339392a6c7605) = block 0xa49c7ff2689f352b6b5bea43026a5049 := by decide +kernel
theorem test_last_round_of_V1_back :
    invSubBytes (invShiftRows (block 0xe9317db5cb322c723d2e895faf090794)) = block 0xeb40f21e592e38848ba113e71bc342d2 := by
  decide +kernel

/-- AES-192 and AES-256 schedules, the second with its extra SubWord (section 2.3). -/
theorem test_schedule_192 :
    let w := keyExpansion (keyOf 24 0x8e73b0f7da0e6452c810f32b809079e562f8ead2522c6b7b) 6 12
    w.length = 52 ∧ w.getD 6 0 = 0xfe0c91f7 ∧ w.getD 51 0 = 0x01002202 := by decide +kernel
theorem test_schedule_256 :
    let w := keyExpansion (keyOf 32 0x000102030405060708090a0b0c0d0e0f101112131415161718191a1b1c1d1e1f) 8 14
    w.length = 60 ∧ w.getD 8 0 = 0xa573c29f ∧ w.getD 12 0 = 0x1651a8cd ∧ w.getD 59 0 = 0x6d68de36 := by decide +kernel

/-! ## The SHA-256 datapath (95 section 3) -/

theorem test_sha_functions :
    smallSigma0 0x80000000 = 0x11002000 ∧ smallSigma1 0x80000000 = 0x00205000 ∧ bigSigma0 0x6a09e667 = 0xce20b47e ∧
      bigSigma1 0x510e527f = 0x3587272b ∧ ch 0x510e527f 0x9b05688c 0x1f83d9ab = 0x1f85c98c ∧
      maj 0x6a09e667 0xbb67ae85 0x3c6ef372 = 0x3a6fe667 := by decide

/-- The padded block of "abc". -/
def abcBlock : Vector Byte 64 :=
  Vector.ofFn fun i =>
    if i.val = 0 then 0x61 else if i.val = 1 then 0x62 else if i.val = 2 then 0x63 else if i.val = 3 then 0x80
    else if i.val = 63 then 0x18 else 0x00

theorem test_message_schedule :
    let w := messageSchedule abcBlock
    w.length = 64 ∧ w.getD 15 0 = 0x00000018 ∧ w.getD 18 0 = 0x7da86405 ∧ w.getD 63 0 = 0x12b1edeb := by decide +kernel

/-- Round 0 of section 3.2. -/
theorem test_compress_round_zero :
    compressRound [0x61626380]
      { a := 0x6a09e667, b := 0xbb67ae85, c := 0x3c6ef372, d := 0xa54ff53a, e := 0x510e527f, f := 0x9b05688c,
        g := 0x1f83d9ab, h := 0x5be0cd19 } 0 =
      { a := 0x5d6aebcd, b := 0x6a09e667, c := 0xbb67ae85, d := 0x3c6ef372, e := 0xfa2a4622, f := 0x510e527f,
        g := 0x9b05688c, h := 0x1f83d9ab } := by decide +kernel

/-! ## The commands, one step each -/

/-- The next state, if there is one. -/
def nextOf (o : Host.Outcome State Fault Refusal) : Option State :=
  match o with
  | .next t => some t
  | _ => none

/-- Reset, with this event to come. -/
def facing (e : Event) : State := { State.reset with events := [e] }

/-- Reset, with this command in flight and its completion to come. -/
def running (c : Inflight) : State := { State.reset with inflight := some c, events := [.complete] }

/-- The key and the plaintext of V1. -/
def keyV1 : Vector Word 8 := #v[0x2b7e1516, 0x28aed2a6, 0xabf71588, 0x09cf4f3c, 0, 0, 0, 0]
def plainV1 : Vector Word 4 := #v[0x3243f6a8, 0x885a308d, 0x313198a2, 0xe0370734]
def cipherV1 : Vector Word 4 := #v[0x3925841d, 0x02dc09fb, 0xdc118597, 0x196a0b32]

/-- P1 line 3 and section 2.3. -/
theorem test_keyexp_installs_the_schedule_of_V1 :
    (nextOf (step (running (.keyexp .aes128 keyV1)))).map (fun t =>
      (t.statusWord, t.cipher.rk[4], t.cipher.rk[43], t.cipher.rk[44], t.cipher.nr)) =
      some (0x00000102, 0xa0fafe17, 0xb6630ca6, 0x00000000, 10) := by decide +kernel
/-- E7. -/
theorem test_keyexp_of_ksz_3 :
    (nextOf (step (facing (cmdWrite 0x00000031)))).map State.statusWord = some 0x00000034 := by decide +kernel

/-- V1 (P1 line 7). -/
theorem test_enc_of_V1 :
    (nextOf (step { running (.enc plainV1) with cipher := installKey .aes128 keyV1 })).map State.aesDout =
      some cipherV1 := by decide +kernel
/-- E6. -/
theorem test_enc_without_a_key :
    (nextOf (step (facing (cmdWrite 0x00000002)))).map State.statusWord = some 0x00000044 := by decide +kernel

/-- V1 back (P1 line 11). -/
theorem test_dec_of_V1 :
    (nextOf (step { running (.dec cipherV1) with cipher := installKey .aes128 keyV1 })).map State.aesDout =
      some plainV1 := by decide +kernel
/-- E17: a DEC while an ENC is in flight. -/
theorem test_dec_while_busy :
    (nextOf (step { facing (cmdWrite 0x00000003) with
      inflight := some (.enc plainV1), cipher := { CipherState.reset with keyvalid := true } })).map
        (fun t => (t.statusWord, t.inflight)) = some (0x00000115, some (.enc plainV1)) := by decide +kernel

/-- P2 lines 2 and 3. -/
theorem test_init_accepted :
    (nextOf (step (facing (cmdWrite 0x00000004)))).map State.statusWord = some 0x00000001 := by decide +kernel
theorem test_init_completes :
    (nextOf (step (running .init))).map (fun t => (t.statusWord, t.sha.h[0], t.sha.h[7])) =
      some (0x00001002, 0x6a09e667, 0x5be0cd19) := by decide +kernel

/-- Section 3.4: 60 bytes "a", then 4 more. -/
theorem test_update_fills_the_block :
    (nextOf (step { running (.update 4 (Vector.replicate 16 0x61616161)) with
      sha := { initContext with buf := Vector.replicate 64 0x61, fill := 60 } })).map
        (fun t => (t.sha.h[0], t.sha.h[7], t.sha.fill, t.sha.bitlen)) = some (0xdf5bb81c, 0x00635e66, 0, 512) := by
  decide +kernel
/-- E9: E_LEN before E_NOCTX. -/
theorem test_update_of_65_bytes :
    (nextOf (step (facing (cmdWrite 0x00004105)))).map State.statusWord = some 0x00000064 := by decide +kernel

/-- P2 line 11. -/
theorem test_final_of_abc :
    (nextOf (step { running .final with sha := { initContext with buf := abcBlock, fill := 3 } })).map
        (fun t => (t.statusWord, t.sha.h, t.sha.bitlen)) =
      some (0x00002002,
        #v[0xba7816bf, 0x8f01cfea, 0x414140de, 0x5dae2223, 0xb00361a3, 0x96177a9c, 0xb410ff61, 0xf20015ad], 24) := by
  decide +kernel
/-- "a" × 63: the 0x80 byte fills the buffer (section 3.3, D46). -/
theorem test_final_with_63_bytes_buffered :
    (nextOf (step { running .final with sha := { initContext with buf := Vector.replicate 64 0x61, fill := 63 } })).map
        (fun t => (t.sha.h[0], t.sha.h[7], t.sha.bitlen)) = some (0x7d3e74a0, 0x7ddc2f34, 504) := by decide +kernel

/-! ## The window, the error record and reset -/

/-- E1 and E5. -/
theorem test_read_of_id :
    (nextOf (step (facing (rdEvent .id)))).map State.response = some (.readData 0x43494E53) := by decide +kernel
theorem test_key_registers_read_zero :
    (nextOf (step { facing (rdEvent (.key 0)) with key := keyV1 })).map State.response = some (.readData 0) := by
  decide +kernel

/-- E3: a write to STATUS sets nothing; and it clears what it names (R26). -/
theorem test_status_write_sets_nothing :
    (nextOf (step (facing (wrEvent .status 0xFFFFFFFF)))).map State.statusWord = some 0x00000000 := by decide +kernel
theorem test_status_write_clears_done_alone :
    (nextOf (step { facing (wrEvent .status 0x00000002) with done := true, err := true, errcode := .noCtx })).map
      State.statusWord = some 0x00000054 := by decide +kernel

/-- E10: the illegal word raises irq. -/
theorem test_error_raises_irq :
    (nextOf (step { facing (cmdWrite 0x00000000) with ie := true })).map (fun t => (t.statusWord, t.irq)) =
      some (0x00000024, true) := by decide +kernel

/-- E25: a halfword access. -/
theorem test_halfword_access :
    (nextOf (step (facing (.access { addr := .window 0x10, bytes := 2, op := .write 1 })))).map
      (fun t => (t.response, t.statusWord)) = some (.busError, 0) := by decide +kernel

/-- R63 while reset is held: a halfword write gets a bus error and nothing else. -/
theorem test_halfword_write_in_reset :
    (nextOf (step { facing (.access { addr := .window 0x10, bytes := 2, op := .write 1 }) with resetHeld := true })).map
      (fun t => (t.response, t.inflight, t.draws)) = some (.busError, none, 0) := by decide +kernel

/-- 70_reset R231: reset abandons the command in flight. -/
theorem test_reset_abandons_the_command :
    (nextOf (step { running .init with events := [.resetPin true] })).map (fun t => (t.inflight, t.done, t.resetHeld)) =
      some (none, false, true) := by decide +kernel

/-- The opcode table's word is the next thing that runs. -/
theorem test_withFetchWord_runs_the_word :
    (nextOf (step (State.reset.withFetchWord 32 0x00000004))).map State.inflight = some (some .init) := by decide +kernel

/-! ## Witnesses: for each obligation with hypotheses, values that meet them -/

theorem witness_StepRunsTheDecodedCommand :
    let s := facing (cmdWrite 0x00000011)
    s.resetHeld = false ∧ s.events = cmdWrite 0x00000011 :: [] ∧ decode 0x00000011 = .ok (.aesKeyexp 1) := by decide +kernel

theorem witness_StepRunsTheCommandInFlight :
    let s := running .init
    let u := { running .init with events := [] }
    (s.resetHeld = false ∧ s.inflight = some .init ∧ EngineMoves s) ∧
      u.resetHeld = false ∧ u.inflight = some .init ∧ EngineMoves u :=
  ⟨⟨rfl, rfl, .inr rfl⟩, rfl, rfl, .inl rfl⟩

theorem witness_IdleKeepsEverything :
    (State.reset.inflight = none ∧ EngineMoves State.reset) ∧
      (facing .complete).inflight = none ∧ EngineMoves (facing .complete) :=
  ⟨⟨rfl, .inl rfl⟩, rfl, .inr rfl⟩

theorem witness_WellFormedWordsAreThoseOfTheMasks :
    let v : Word := 0x00008005
    let s := facing (cmdWrite v)
    ¬(1 ≤ (v.extractLsb' 0 4).toNat ∧ (v.extractLsb' 0 4).toNat ≤ 6 ∧ v &&& 0xFFFF80FF = (v.extractLsb' 0 4).setWidth 32) ∧
      s.resetHeld = false ∧ s.inflight = none ∧ s.events = cmdWrite v :: [] := by decide +kernel

theorem witness_DecodeOfEncodeIsTheCommand :
    Instr.wellFormed (.shaUpdate 127) = true ∧ Instr.wellFormed (.aesKeyexp 3) = true := by decide

theorem witness_EncodeOfDecodeIsTheWord : decode 0x00007F05 = .ok (.shaUpdate 127) := by decide

/-- Acceptance, and each error: E_BUSY on an illegal word, E_ILLEGAL, E_KEYSIZE, E_LEN without a context, E_NOKEY and E_NOCTX. -/
theorem witness_CmdWriteRaisesTheFirstErrorOrAccepts :
    let s (v : Word) := facing (cmdWrite v)
    (s 1).resetHeld = false ∧ (s 1).events = cmdWrite 1 :: [] ∧ issueError 1 (s 1) = .none ∧
      issueError 0 { s 0 with inflight := some .init } = .busy ∧ issueError 0x00000007 (s 7) = .illegal ∧
      issueError 0x00000031 (s 0x31) = .keySize ∧ issueError 0x00004105 (s 0x4105) = .len ∧
      issueError 0x00000002 (s 2) = .noKey ∧ issueError 0x00004005 (s 0x4005) = .noCtx := by decide +kernel

/-- An installed key and an active context, with nothing in flight. -/
def ready : State :=
  { State.reset with cipher := { CipherState.reset with keyvalid := true }, sha := initContext }

theorem witness_AcceptedCommandGoesInFlight :
    ready.turn = .host ∧ ready.inflight = none ∧ ready.cipher.keyvalid = true ∧ 64 ≤ 64 ∧ ready.sha.state = .active := by
  decide +kernel

theorem witness_FieldAndStateErrorsChangeNothingElse :
    State.reset.turn = .host ∧ State.reset.inflight = none ∧ State.reset.cipher.keyvalid = false ∧
      State.reset.sha.state ≠ .active ∧ 64 ≤ 64 ∧ (65 ≤ 65 ∧ 65 ≤ 127) ∧ 65 ≤ 127 ∧ 127 ≤ 127 := by decide +kernel

theorem witness_BusyWriteDoesNotDisturbTheCommand :
    let s := { running .init with events := [cmdWrite 0x00000006, .complete] }
    s.resetHeld = false ∧ s.inflight = some .init ∧ s.events = cmdWrite 0x00000006 :: .complete :: [] := by decide +kernel

/-- The engine's turn, with this command in flight. -/
def completing (c : Inflight) : State := { State.reset with turn := .engine, inflight := some c }

theorem witness_KeyexpInstallsTheKeySchedule :
    let s := completing (.keyexp .aes256 keyV1)
    s.turn = .engine ∧ s.inflight = some (.keyexp .aes256 keyV1) := by decide +kernel

theorem witness_EncAndDecWriteTheOutputBlock :
    (completing (.enc plainV1)).turn = .engine ∧ (completing (.enc plainV1)).inflight = some (.enc plainV1) ∧
      (completing (.dec plainV1)).turn = .engine ∧ (completing (.dec plainV1)).inflight = some (.dec plainV1) := by
  decide +kernel

theorem witness_InitCreatesAContext : (completing .init).turn = .engine ∧ (completing .init).inflight = some .init := by
  decide +kernel

/-- Both clauses at their edges: 63 bytes in all, 64 bytes in all, and the most there can be. -/
theorem witness_UpdateAppendsTheMessageBytes :
    let d : Vector Word 16 := Vector.replicate 16 0
    let s (f n : Nat) := { completing (.update n d) with sha := { initContext with fill := f } }
    ((s 0 63).turn = .engine ∧ (s 0 63).inflight = some (.update 63 d) ∧ 63 ≤ 64 ∧ (s 0 63).sha.fill < 64 ∧
        (s 0 63).sha.fill + 63 < 64) ∧
      ((s 0 64).turn = .engine ∧ (s 0 64).inflight = some (.update 64 d) ∧ (s 0 64).sha.fill < 64 ∧
        64 ≤ (s 0 64).sha.fill + 64) ∧
      (s 63 64).turn = .engine ∧ (s 63 64).inflight = some (.update 64 d) ∧ (s 63 64).sha.fill < 64 ∧
        64 ≤ (s 63 64).sha.fill + 64 := by decide +kernel

/-- Both clauses at their edges: fill 55 and fill 56. -/
theorem witness_FinalPadsAndCompresses :
    let s (f : Nat) := { completing .final with sha := { initContext with fill := f } }
    ((s 55).turn = .engine ∧ (s 55).inflight = some .final ∧ (s 55).sha.fill < 64 ∧ (s 55).sha.fill ≤ 55) ∧
      (s 56).turn = .engine ∧ (s 56).inflight = some .final ∧ (s 56).sha.fill < 64 ∧ 56 ≤ (s 56).sha.fill := by
  decide +kernel

theorem witness_ContextLifeCycle :
    let d : Vector Word 16 := Vector.replicate 16 0
    let u := { completing (.update 0 d) with sha := initContext }
    (ready.turn = .host ∧ ready.inflight = none ∧ 64 ≤ 64 ∧ ready.sha.state = .active ∧ State.reset.turn = .host ∧
        State.reset.inflight = none ∧ State.reset.sha.state ≠ .active) ∧
      (∃ t, (completing .init).turn = .engine ∧ (completing .init).inflight = some .init ∧
        exec .shaInit (completing .init) = .next t) ∧
      (∃ t, u.turn = .engine ∧ u.inflight = some (.update 0 d) ∧ u.sha.state = .active ∧ exec (.shaUpdate 0) u = .next t) ∧
      ∃ t, (completing .final).turn = .engine ∧ (completing .final).inflight = some .final ∧
        exec .shaFinal (completing .final) = .next t :=
  ⟨by decide +kernel, ⟨_, rfl, rfl, exec_engine .init _ rfl rfl⟩,
    ⟨_, rfl, rfl, rfl, exec_engine (.update 0 (Vector.replicate 16 0)) _ rfl rfl⟩,
    ⟨_, rfl, rfl, exec_engine .final _ rfl rfl⟩⟩

theorem witness_OperandsPastTheLengthAreNotRead :
    let a : Vector Word 8 := keyV1
    let b : Vector Word 8 := keyV1.set 4 1
    let m : Vector Word 16 := (Vector.replicate 16 0).set 0 0x61626300
    let n : Vector Word 16 := (Vector.replicate 16 0).set 0 0x616263FF
    (completing .init).turn = .engine ∧ (∀ i : Fin 8, i.val < KeySize.aes128.nk → a[i] = b[i]) ∧ a ≠ b ∧
      (∀ i : Fin 16, ∀ j < 4, 4 * i.val + j < 3 → byteOf m[i] j = byteOf n[i] j) ∧ m ≠ n := by decide +kernel

theorem witness_StatusReadIsExact :
    (facing (rdEvent .status)).resetHeld = false ∧ (facing (rdEvent .status)).events = rdEvent .status :: [] := by
  decide +kernel

/-- A read of this offset to come. -/
def reading (off : BitVec 8) : State := facing (.access { addr := .window off, bytes := 4, op := .read })

/-- Both clauses, at the edges of the result registers. -/
theorem witness_ReadsReturnTheRegisterOrAFreeValue :
    let s := { reading 0x50 with inflight := some .final }
    let u := { reading 0x50 with inflight := some (.dec plainV1) }
    (s.resetHeld = false ∧ (0x50 : BitVec 8).toNat % 4 = 0 ∧ s.sha.fill < 64 ∧
        s.events = .access { addr := .window 0x50, bytes := 4, op := .read } :: [] ∧
        ∀ c, s.inflight = some c → ¬resultOffset c (0x50 : BitVec 8).toNat) ∧
      (u.resetHeld = false ∧ u.sha.fill < 64 ∧ u.events = .access { addr := .window 0x50, bytes := 4, op := .read } :: [] ∧
        u.inflight = some (.dec plainV1) ∧ resultOffset (.dec plainV1) (0x50 : BitVec 8).toNat) ∧
      resultOffset (.enc plainV1) 0x5C ∧ resultOffset .init 0x14 ∧ resultOffset .init 0x1C ∧ resultOffset .init 0x60 ∧
      resultOffset .final 0x7C := by
  refine ⟨⟨rfl, rfl, by decide, rfl, ?_⟩, ⟨rfl, by decide, rfl, rfl, ?_⟩, ?_⟩
  · intro c hc
    cases hc
    simp [resultOffset]
  · simp [resultOffset]
  · simp [resultOffset]

theorem witness_WritesHaveTheEffectOfTheirOffset :
    let s (off : BitVec 8) := facing (.access { addr := .window off, bytes := 4, op := .write 1 })
    ((s 0x10).resetHeld = false ∧ (0x10 : BitVec 8).toNat % 4 = 0 ∧
        (s 0x10).events = .access { addr := .window 0x10, bytes := 4, op := .write 1 } :: [] ∧
        (0x10 : BitVec 8).toNat = 0x010) ∧
      (s 0xFC).resetHeld = false ∧ (0xFC : BitVec 8).toNat % 4 = 0 ∧
        (s 0xFC).events = .access { addr := .window 0xFC, bytes := 4, op := .write 1 } :: [] ∧
        (0xFC : BitVec 8).toNat ≠ 0x010 := by decide +kernel

theorem witness_StatusWriteOnlyClears :
    (facing (wrEvent .status 6)).resetHeld = false ∧ (facing (wrEvent .status 6)).events = wrEvent .status 6 :: [] := by
  decide +kernel

/-- A narrow read, a wide read and a misaligned word with reset released, a misaligned write with reset held; and a narrow
read with reset held. -/
theorem witness_OtherAccessesGetABusError :
    let e (off : BitVec 8) (n : Nat) (op : BusOp) : Event := .access { addr := .window off, bytes := n, op := op }
    let held (x : Event) : State := { facing x with resetHeld := true }
    ((2 ≠ 4 ∨ (0x0C : BitVec 8).toNat % 4 ≠ 0) ∧ (facing (e 0x0C 2 .read)).events = e 0x0C 2 .read :: [] ∧
        ((facing (e 0x0C 2 .read)).resetHeld = false ∨ BusOp.read ≠ .read)) ∧
      (8 ≠ 4 ∨ (0x0C : BitVec 8).toNat % 4 ≠ 0) ∧ (4 ≠ 4 ∨ (0x0D : BitVec 8).toNat % 4 ≠ 0) ∧
      ((4 ≠ 4 ∨ (0xFF : BitVec 8).toNat % 4 ≠ 0) ∧ (held (e 0xFF 4 (.write 1))).events = e 0xFF 4 (.write 1) :: [] ∧
        ((held (e 0xFF 4 (.write 1))).resetHeld = false ∨ BusOp.write 1 ≠ .read)) ∧
      (held (e 0x0C 2 .read)).events = e 0x0C 2 .read :: [] ∧ (held (e 0x0C 2 .read)).resetHeld = true := by
  decide +kernel

theorem witness_OnlyTheWindowIsDecoded :
    let a := Config.base + 0x100
    let e : Event := .access { addr := .outside a, bytes := 4, op := .read }
    (a < Config.base ∨ Config.base + 0x100 ≤ a) ∧ (facing e).events = e :: [] :=
  ⟨.inr (Nat.le_refl _), rfl⟩

theorem witness_ReadsDoNotRevealHiddenState :
    let s := { reading 0x20 with inflight := some (.enc plainV1) }
    ∃ t, s.events = .access { addr := .window 0x20, bytes := 4, op := .read } :: [] ∧
      (some (Inflight.enc cipherV1)).map Inflight.instr = s.inflight.map Inflight.instr ∧ step s = .next t :=
  ⟨_, rfl, rfl, step_rdEvent (r := .key 0) rfl rfl⟩

theorem witness_ResetGivesTheResetValues :
    (facing (.resetPin true)).events = .resetPin true :: [] ∧
      { facing (.resetPin false) with resetHeld := true }.resetHeld = true ∧
      { facing (.resetPin false) with resetHeld := true }.events = .resetPin false :: [] := ⟨rfl, rfl, rfl⟩

theorem witness_AccessesInResetHaveNoEffect :
    let w : Access := { addr := .window 0x10, bytes := 4, op := .write 1 }
    let r : Access := { addr := .window 0x10, bytes := 4, op := .read }
    { facing (.access w) with resetHeld := true }.resetHeld = true ∧ (0x10 : BitVec 8).toNat % 4 = 0 ∧
      { facing (.access w) with resetHeld := true }.events = .access w :: [] ∧
      { facing (.access r) with resetHeld := true }.events = .access r :: [] := ⟨rfl, rfl, rfl, rfl⟩

/-- SHA.FINAL in flight on an active context, with an error recorded. -/
theorem witness_StepsKeepTheStateCoherent :
    let s := { running .final with sha := initContext, err := true, errcode := .keySize }
    ∃ t, Coherent s ∧ step s = .next t := by
  refine ⟨_, ⟨?_, ⟨fun _ => rfl, fun h => ?_⟩, ⟨?_, ?_, ?_, ?_⟩, ?_, ?_⟩,
    (step_complete rfl).trans (engineStep_inflight rfl rfl)⟩
  · simp [ErrorRecordOk]
  · cases h
  · decide
  · intro h; cases h
  · intro h; cases h
  · intro _; decide
  · exact ⟨rfl, rfl⟩
  · intro h; cases h

theorem witness_KeyScheduleChangesOnlyAtKeyexpOrReset :
    ∃ t, step (running (.keyexp .aes128 keyV1)) = .next t ∧ t.cipher ≠ (running (.keyexp .aes128 keyV1)).cipher := by
  refine ⟨_, (step_complete rfl).trans (engineStep_inflight rfl rfl), fun h => ?_⟩
  have hk := congrArg CipherState.keyvalid h
  simp [completed_cipher, running, State.reset, CipherState.reset] at hk

theorem witness_ResultsChangeOnlyAtCompletionOrReset :
    (∃ t, step (running .init) = .next t ∧ t.sha ≠ (running .init).sha) ∧
      ∃ t, step (running (.enc plainV1)) = .next t ∧ t.aesDout ≠ (running (.enc plainV1)).aesDout := by
  refine ⟨⟨_, (step_complete rfl).trans (engineStep_inflight rfl rfl), ?_⟩,
    ⟨_, (step_complete rfl).trans (engineStep_inflight rfl rfl), ?_⟩⟩
  · decide +kernel
  · decide +kernel

theorem witness_InputRegistersChangeOnlyByTheirOwnWrite :
    let s := facing (wrEvent (.key 7) 1)
    ∃ t, step s = .next t ∧ ¬ResetMoves s ∧ t.key[7] ≠ s.key[7] := by
  refine ⟨_, step_wrEvent (r := .key 7) rfl (by decide) rfl, ?_, by decide +kernel⟩
  rintro ⟨b, hb⟩
  cases hb

/-- Each clause: DONE set, DONE cleared by acceptance and by W1C, ERR set, ERR cleared (the code changes in the last two). -/
theorem witness_DoneAndErrChangeOnlyAsTheirRulesSay :
    (∃ t, step (running .init) = .next t ∧ ¬ResetMoves (running .init) ∧ (running .init).done = false ∧ t.done = true) ∧
      (nextOf (step { facing (cmdWrite 4) with done := true })).map State.done = some false ∧
      (nextOf (step { facing (wrEvent .status 2) with done := true })).map State.done = some false ∧
      (nextOf (step (facing (cmdWrite 0)))).map (fun t => (t.err, t.errcode)) = some (true, .illegal) ∧
      (nextOf (step { facing (wrEvent .status 4) with err := true, errcode := .len })).map (fun t => (t.err, t.errcode)) =
        some (false, .none) := by
  refine ⟨⟨_, (step_complete rfl).trans (engineStep_inflight rfl rfl), ?_, rfl, rfl⟩, by decide +kernel⟩
  rintro ⟨b, hb⟩
  cases hb

theorem witness_AesAndShaStateAreDisjoint :
    (∃ t, exec .aesEnc ready = .next t) ∧ ∃ t, exec .shaInit ready = .next t := ⟨⟨_, rfl⟩, ⟨_, rfl⟩⟩

/-- Each clause's hypotheses: a completion, a rejected word, a STATUS write and a CTRL write. -/
theorem witness_IrqFollowsDoneAndErr :
    let s (e : Event) := { facing e with ie := true }
    (∃ t, step { running .init with ie := true } = .next t ∧ EngineMoves { running .init with ie := true } ∧
        { running .init with ie := true }.inflight ≠ none) ∧
      (∃ t, step (s (cmdWrite 0)) = .next t ∧ issueError 0 (s (cmdWrite 0)) ≠ .none) ∧
      (∃ t, step (s (wrEvent .status 6)) = .next t) ∧ ∃ t, step (s (wrEvent .ctrl 0)) = .next t :=
  ⟨⟨_, (step_complete rfl).trans (engineStep_inflight rfl rfl), .inr rfl, by decide⟩,
    ⟨_, rfl, by decide +kernel⟩, ⟨_, step_wrEvent (r := .status) rfl (by decide) rfl⟩,
    ⟨_, step_wrEvent (r := .ctrl) rfl (by decide) rfl⟩⟩

theorem witness_EveryAcceptedCommandCompletes :
    let s := { running .init with events := [rdEvent .status, .complete] }
    s.inflight ≠ none ∧ s.resetHeld = false ∧ ∀ level, .resetPin level ∉ s.events := by decide +kernel

theorem witness_InputWritesCommuteWithCompletion :
    (running (.enc plainV1)).resetHeld = false ∧ (running (.enc plainV1)).inflight = some (.enc plainV1) ∧
      ((∃ k, Reg.aesDin 3 = .key k) ∨ (∃ k, Reg.aesDin 3 = .aesDin k) ∨ ∃ k, Reg.aesDin 3 = .shaDin k) :=
  ⟨rfl, rfl, .inr (.inl ⟨3, rfl⟩)⟩

theorem witness_LatencyIsPositiveAndDataIndependent :
    let s := { State.reset with shaDin := Vector.replicate 16 1 }
    (Inflight.enc plainV1).instr = (Inflight.enc cipherV1).instr ∧ s.cipher.ksz = State.reset.cipher.ksz ∧
      s.sha.fill = State.reset.sha.fill := ⟨rfl, rfl, rfl⟩

theorem witness_DecryptUndoesEncrypt : 1 ≤ KeySize.aes128.nr ∧ 1 ≤ KeySize.aes256.nr := by decide

theorem witness_RoundKeyZeroIsTheKeysFirstBytes :
    (keyBytes .aes128 keyV1).length = 4 * KeySize.aes128.nk ∧ (keyBytes .aes256 keyV1).length = 4 * KeySize.aes256.nk := by
  decide +kernel

theorem witness_DecOfEncThroughTheRegisters : ready.resetHeld = false ∧ ready.inflight = none := ⟨rfl, rfl⟩

theorem witness_HashingThroughTheRegisters :
    let chunks : List (Nat × Vector Word 16) := [(64, Vector.replicate 16 0), (0, Vector.replicate 16 0)]
    ready.resetHeld = false ∧ ready.inflight = none ∧ ∀ c ∈ chunks, c.1 ≤ 64 := by decide +kernel

end Sys2Proof.Tests
end

section
/-! SUPPORT. Proofs of the statements about the state (10_state): what one step can lead to, said once as `StepTo`, and the
statements read off it case by case. -/

namespace Sys2Proof.Machine

open Sys2Proof.Safety

/-! ## The word written to CMD, with its error and its record read off the word (60_exceptions R203) -/

/-- The checks a command makes of an idle CORE, by their own names (60_exceptions R203). -/
def checks (i : Instr) (s : State) : Except ErrCode Inflight :=
  match i with
  | .aesKeyexp ksz => checkKeyexp ksz s
  | .aesEnc => checkEnc s
  | .aesDec => checkDec s
  | .shaInit => .ok .init
  | .shaUpdate len => checkUpdate len s
  | .shaFinal => checkFinal s

/-- The checks a word written to CMD meets on an idle CORE. -/
def wordChecks (v : Word) (s : State) : Except ErrCode Inflight :=
  match decode v with
  | .ok i => checks i s
  | .error _ => .error .illegal

/-- In the host's turn every command is issued with its checks. -/
theorem exec_host_eq (i : Instr) (s : State) (h : s.turn = .host) : exec i s = .next (issue (checks i s) s) := by
  cases i <;> simp [exec, execAesKeyexp, execAesEnc, execAesDec, execShaInit, execShaUpdate, execShaFinal, h, checks]

/-- A word written to CMD is issued with the checks it meets. -/
theorem issueWord_eq_issue (v : Word) (s : State) :
    issueWord v s = .next (issue (wordChecks v s) { s with turn := .host }) := by
  unfold issueWord wordChecks
  cases decode v with
  | error e => rfl
  | ok i =>
    simp only [exec_host_eq i { s with turn := .host } rfl]
    cases i <;> rfl

/-- KEYEXP's check on the KSZ field of a word (30_encoding R93). -/
theorem checkKeyexp_kszOf (v : Word) (s : State) :
    checkKeyexp (kszOf v) s =
      if v.extractLsb' 4 2 = 3 then .error .keySize
      else .ok (.keyexp
        (if v.extractLsb' 4 2 = 0 then .aes128 else if v.extractLsb' 4 2 = 1 then .aes192 else .aes256) s.key) := by
  unfold checkKeyexp kszOf
  generalize v.extractLsb' 4 2 = k
  have four : ∀ k : BitVec 2, k = 0 ∨ k = 1 ∨ k = 2 ∨ k = 3 := by decide
  rcases four k with rfl | rfl | rfl | rfl <;> rfl

/-- UPDATE's checks on the LEN field of a word (30_encoding R94). -/
theorem checkUpdate_lenOf (v : Word) (s : State) :
    checkUpdate (lenOf v) s =
      if v.extractLsb' 8 7 > 64 then .error .len
      else if s.sha.state ≠ .active then .error .noCtx
      else .ok (.update (v.extractLsb' 8 7).toNat s.shaDin) := by
  have hlen : lenOf v > 64 ↔ v.extractLsb' 8 7 > 64 := Iff.rfl
  simp only [checkUpdate, hlen, ite_not]
  rfl

/-- On an idle CORE the checks give the error read off the word, or else the record read off the word. -/
theorem wordChecks_eq (v : Word) (s : State) (hb : s.busy = false) :
    wordChecks v s =
      if issueError v s = .none then .ok (acceptedRecord v s) else .error (issueError v s) := by
  unfold wordChecks
  rcases decode_cases v with ⟨ho, hd⟩ | ⟨ho, hd⟩ | ⟨ho, hd⟩ | ⟨ho, hd⟩ | ⟨ho, hd⟩ | ⟨ho, hd⟩ | ⟨ho, hd⟩ <;>
    rw [opcOf] at ho <;> rw [hd]
  case inr.inr.inr.inr.inr.inr =>
    have hill : issueError v s = .illegal := by
      simp only [issueError, hb, Bool.false_eq_true, if_false]
      exact if_pos (.inl ho)
    simp [hill]
  all_goals
    simp [issueError, acceptedRecord, hb, ho]
    split_ifs <;> simp_all [checks, checkEnc, checkDec, checkFinal, checkKeyexp_kszOf, checkUpdate_lenOf]

/-- A word written to CMD: its first error recorded, or its record accepted. -/
theorem issueWord_eq (v : Word) (s : State) :
    issueWord v s = .next
      (if issueError v s = .none then accept (acceptedRecord v s) { s with turn := .host }
       else raiseCmdError (issueError v s) { s with turn := .host }) := by
  rw [issueWord_eq_issue]
  cases hb : s.busy with
  | true =>
    have hbusy : issueError v s = .busy := by simp [issueError, hb]
    have hb' : ({ s with turn := .host } : State).busy = true := hb
    simp [issue, hb', hbusy]
  | false =>
    have hb' : ({ s with turn := .host } : State).busy = false := hb
    simp only [issue, hb', Bool.false_eq_true, if_false, wordChecks_eq v s hb]
    split_ifs <;> rfl

/-- What a command's checks let through is accepted with what they established. -/
theorem checks_accepted {i : Instr} {s : State} {c : Inflight} (h : checks i s = .ok c) : Accepted c s := by
  cases i with
  | aesKeyexp k => obtain e | ⟨z, e⟩ := checkKeyexp_cases k s <;> cases e.symm.trans h; rfl
  | aesEnc => obtain e | ⟨e, hk⟩ := checkEnc_cases s <;> cases e.symm.trans h; exact ⟨rfl, hk⟩
  | aesDec => obtain e | ⟨e, hk⟩ := checkDec_cases s <;> cases e.symm.trans h; exact ⟨rfl, hk⟩
  | shaInit => cases h; trivial
  | shaUpdate n =>
    obtain e | e | ⟨e, hn, ha⟩ := checkUpdate_cases n s <;> cases e.symm.trans h; exact ⟨hn, rfl, ha⟩
  | shaFinal => obtain e | ⟨e, ha⟩ := checkFinal_cases s <;> cases e.symm.trans h; exact ha

/-- A word without an error finds the CORE idle. -/
theorem inflight_of_issueError_none {v : Word} {s : State} (h : issueError v s = .none) : s.inflight = none := by
  by_contra hc
  have hb : s.busy = true := Option.isSome_iff_ne_none.mpr hc
  simp [issueError, hb] at h

/-- The record of a word without an error is what its command's checks let through. -/
theorem accepted_of_issueError_none {v : Word} {s : State} (h : issueError v s = .none) :
    Accepted (acceptedRecord v s) s := by
  have hb : s.busy = false := by simp [State.busy, inflight_of_issueError_none h]
  have hw := wordChecks_eq v s hb
  rw [if_pos h, wordChecks] at hw
  split at hw
  · exact checks_accepted hw
  · cases hw

/-! ## One step, with what it writes -/

/-- The states one step can lead to, one constructor for each thing a step can be. -/
inductive StepTo (s : State) : State → Prop where
  | resets {b : Bool} {rest : List Event} (he : s.events = .resetPin b :: rest) :
      StepTo s (setResetPin b { s with events := rest })
  | idles (hm : EngineMoves s) : StepTo s { s with events := s.events.tail }
  | completes {c : Inflight} (hm : EngineMoves s) (hc : s.inflight = some c) (hr : s.resetHeld = false) :
      StepTo s (retire (completed c { s with events := s.events.tail, turn := .engine }))
  | answers (rest : List Event) (r : BusResponse) (d : Nat) :
      StepTo s { s with events := rest, response := r, draws := d }
  | rejects {v : Word} {rest : List Event} (hr : s.resetHeld = false) (he : s.events = cmdWrite v :: rest)
      (hne : issueError v s ≠ .none) :
      StepTo s (raiseCmdError (issueError v s) { s with events := rest, response := .writeDone, turn := .host })
  | accepts {v : Word} {rest : List Event} (hr : s.resetHeld = false) (he : s.events = cmdWrite v :: rest)
      (hok : issueError v s = .none) :
      StepTo s (accept (acceptedRecord v s) { s with events := rest, response := .writeDone, turn := .host })
  | writes {r : Reg} {v : Word} {rest : List Event} (hr : s.resetHeld = false) (he : s.events = wrEvent r v :: rest) :
      StepTo s (respond .writeDone (writeRegister r v { s with events := rest }))

/-- Every step is one of them. -/
theorem stepTo_of_step {s t : State} (h : step s = .next t) : StepTo s t := by
  rcases step_cases h with ⟨b, rest, he, rfl⟩ | ⟨hm, he⟩ | ⟨a, rest, he, ha⟩
  · exact .resets he
  · rcases engineStep_cases he with ⟨rfl, _⟩ | ⟨c, hc, hr, rfl⟩
    · exact .idles hm
    · exact .completes hm hc hr
  · rcases hostAccess_cases ha with ⟨r, d, rfl⟩ | ⟨v, hr, hv, hi⟩ | ⟨r, v, hr, _, hv, rfl⟩
    · exact .answers rest r d
    · rw [issueWord_eq] at hi
      obtain rfl := Host.Outcome.next.inj hi
      rw [hv] at he
      split_ifs with hok
      · exact .accepts hr he hok
      · exact .rejects hr he hok
    · exact .writes hr (hv ▸ he)

/-- The engine's move is the engine's step, with the sequence of events moved on. -/
theorem step_of_engineMoves {s : State} (h : EngineMoves s) :
    step s = engineStep { s with events := s.events.tail } := by
  unfold step nextEvent
  rcases h with h | h
  · cases s; cases h; rfl
  · cases he : s.events with
    | nil => simp [he] at h
    | cons e rest =>
      obtain rfl : e = .complete := by simpa [he] using h
      rfl

/-- A write to CMD of a word with an error records it (60_exceptions R202, R203). -/
theorem step_cmdWrite_of_error {s : State} {v : Word} {rest : List Event} (hr : s.resetHeld = false)
    (he : s.events = cmdWrite v :: rest) (hne : issueError v s ≠ .none) :
    step s = .next
      (raiseCmdError (issueError v s) { s with events := rest, response := .writeDone, turn := .host }) := by
  rw [step_cmdWrite hr he, issueWord_eq]
  exact congrArg _ (if_neg hne)

/-- A write to CMD of a word without an error is accepted (70_reset_and_hazards R237). -/
theorem step_cmdWrite_of_ok {s : State} {v : Word} {rest : List Event} (hr : s.resetHeld = false)
    (he : s.events = cmdWrite v :: rest) (hok : issueError v s = .none) :
    step s = .next
      (accept (acceptedRecord v s) { s with events := rest, response := .writeDone, turn := .host }) := by
  rw [step_cmdWrite hr he, issueWord_eq]
  exact congrArg _ (if_pos hok)

theorem resetMoves_of_events {s : State} {b : Bool} {rest : List Event} (he : s.events = .resetPin b :: rest) :
    ResetMoves s := ⟨b, by rw [he]; rfl⟩

/-- An access to come, once it is taken off the sequence. -/
theorem step_access {s : State} {a : Access} {rest : List Event} (he : s.events = .access a :: rest) :
    step s = hostAccess a { s with events := rest } := by
  rw [step, nextEvent, he]; rfl

/-- A level of the reset input: the reset values, or a release of what was not asserted, which is nothing (log 19). -/
theorem setResetPin_cases (b : Bool) (s : State) :
    setResetPin b s = { hardReset s with resetHeld := b } ∨ setResetPin b s = s := by
  unfold setResetPin
  split
  · exact .inl rfl
  · exact .inr rfl

/-! ## What a register write does to each field it can change (20_memory R62) -/

theorem writeRegister_done (r : Reg) (v : Word) (s : State) :
    (writeRegister r v s).done = if r = .status then s.done && !v.getLsbD 1 else s.done := by
  cases r <;> simp [writeRegister]

theorem writeRegister_err (r : Reg) (v : Word) (s : State) :
    (writeRegister r v s).err = if r = .status then s.err && !v.getLsbD 2 else s.err := by
  cases r <;> simp [writeRegister]

theorem writeRegister_errcode (r : Reg) (v : Word) (s : State) :
    (writeRegister r v s).errcode = if r = .status ∧ v.getLsbD 2 = true then .none else s.errcode := by
  cases r <;> simp [writeRegister]

theorem writeRegister_ie (r : Reg) (v : Word) (s : State) :
    (writeRegister r v s).ie = if r = .ctrl then v.getLsbD 0 else s.ie := by
  cases r <;> simp [writeRegister]

theorem writeRegister_key_getElem (r : Reg) (v : Word) (s : State) (k : Fin 8) :
    (writeRegister r v s).key[k] = if r = .key k then v else s.key[k] := by
  cases r <;> simp [writeRegister, Vector.getElem_set, Fin.ext_iff]

theorem writeRegister_aesDin_getElem (r : Reg) (v : Word) (s : State) (k : Fin 4) :
    (writeRegister r v s).aesDin[k] = if r = .aesDin k then v else s.aesDin[k] := by
  cases r <;> simp [writeRegister, Vector.getElem_set, Fin.ext_iff]

theorem writeRegister_shaDin_getElem (r : Reg) (v : Word) (s : State) (k : Fin 16) :
    (writeRegister r v s).shaDin[k] = if r = .shaDin k then v else s.shaDin[k] := by
  cases r <;> simp [writeRegister, Vector.getElem_set, Fin.ext_iff]

/-! ## The invariant (10_state R28, R30, R35, R40, R41; 70_reset_and_hazards R230) -/

/-- The invariant says nothing of the model's own fields. -/
theorem coherent_withModelFields {s : State} (h : Coherent s) (turn : Agent) (events : List Event)
    (response : BusResponse) (draws : Nat) :
    Coherent { s with turn := turn, events := events, response := response, draws := draws } where
  errorRecord := h.errorRecord
  cipher := h.cipher
  context := h.context
  inflight := h.inflight
  resetHeld hr := by
    have hs : hardReset s = s := h.resetHeld hr
    calc hardReset { s with turn := turn, events := events, response := response, draws := draws }
        = { hardReset s with turn := turn, events := events, response := response, draws := draws } := rfl
      _ = _ := by rw [hs]

theorem coherent_respond (r : BusResponse) {s : State} (h : Coherent s) : Coherent (respond r s) :=
  coherent_withModelFields h _ _ _ _

theorem cipherOk_reset : CipherOk .reset := ⟨fun _ => rfl, fun h => by cases h⟩

theorem contextOk_reset : ContextOk .reset :=
  ⟨Nat.zero_lt_succ 63, fun _ => rfl, fun _ => rfl, fun h => by cases h⟩

/-- The reset values are coherent, at either level of the reset input. -/
theorem coherent_hardReset (b : Bool) (s : State) : Coherent { hardReset s with resetHeld := b } where
  errorRecord := ⟨fun _ => rfl, fun _ => rfl⟩
  cipher := cipherOk_reset
  context := contextOk_reset
  inflight := trivial
  resetHeld _ := rfl

theorem coherent_setResetPin (b : Bool) {s : State} (h : Coherent s) : Coherent (setResetPin b s) := by
  rcases setResetPin_cases b s with e | e <;> rw [e]
  · exact coherent_hardReset b s
  · exact h

/-- What is in flight stays in order while the command, the key and the context stay and DONE is not set. -/
theorem inflightOk_of_eq {s t : State} (h : InflightOk s) (hi : t.inflight = s.inflight) (hc : t.cipher = s.cipher)
    (hs : t.sha = s.sha) (hd : s.done = false → t.done = false) : InflightOk t := by
  unfold InflightOk at h ⊢
  rw [hi]
  cases hf : s.inflight with
  | none => trivial
  | some c =>
    rw [hf] at h
    obtain ⟨hdone, hstate⟩ := h
    exact ⟨hd hdone, by rw [hc, hs]; exact hstate⟩

/-- With reset released the clause on reset holds of itself. -/
theorem resetHeldOk_of_released {s : State} (h : s.resetHeld = false) : ResetHeldOk s := fun hr => by simp [h] at hr

theorem coherent_raiseCmdError {s : State} {code : ErrCode} (h : Coherent s) (hr : s.resetHeld = false)
    (hne : code ≠ .none) : Coherent (raiseCmdError code s) where
  errorRecord := by simp [ErrorRecordOk, hne]
  cipher := h.cipher
  context := h.context
  inflight := inflightOk_of_eq h.inflight rfl rfl rfl id
  resetHeld := resetHeldOk_of_released hr

theorem coherent_accept {s : State} {c : Inflight} (h : Coherent s) (hr : s.resetHeld = false)
    (hacc : Accepted c s) : Coherent (accept c s) where
  errorRecord := h.errorRecord
  cipher := h.cipher
  context := h.context
  inflight := by
    refine ⟨rfl, ?_⟩
    cases c with
    | keyexp => trivial
    | enc => exact hacc.2
    | dec => exact hacc.2
    | init => trivial
    | update => exact ⟨hacc.1, hacc.2.2⟩
    | final => exact hacc
  resetHeld := resetHeldOk_of_released hr

theorem coherent_writeRegister {s : State} (r : Reg) (v : Word) (h : Coherent s) (hr : s.resetHeld = false) :
    Coherent (writeRegister r v s) where
  errorRecord := by
    have he : s.err = false ↔ s.errcode = .none := h.errorRecord
    rw [ErrorRecordOk, writeRegister_err, writeRegister_errcode]
    by_cases hs : r = .status <;> cases v.getLsbD 2 <;> simp [hs, he]
  cipher := by rw [writeRegister_cipher]; exact h.cipher
  context := by rw [writeRegister_sha]; exact h.context
  inflight := by
    refine inflightOk_of_eq h.inflight (by simp) (by simp) (by simp) fun hd => ?_
    simp [writeRegister_done, hd]
  resetHeld := resetHeldOk_of_released (by simpa using hr)

/-- An installed key is a whole schedule of one key (10_state R40). -/
theorem cipherOk_installKey (k : KeySize) (keys : Vector Word 8) : CipherOk (installKey k keys) :=
  ⟨fun h => by simp at h, fun _ => ⟨keys, by simp⟩⟩

theorem contextOk_initContext : ContextOk initContext :=
  ⟨Nat.zero_lt_succ 63, fun h => (by cases h), fun _ => rfl, fun _ => rfl⟩

/-- An active context stays one through SHA.UPDATE, with fewer than 64 bytes buffered (43_sha_commands R182). -/
theorem contextOk_updateContext {c : ShaContext} (m : List Byte) (h : ContextOk c) (ha : c.state = .active) :
    ContextOk (updateContext m c) := by
  obtain ⟨hfill, -, -, hbits⟩ := h
  obtain ⟨hfill', hstate', hbits'⟩ := updateContext_bounds m c hfill
  rw [ha] at hstate'
  exact ⟨hfill', fun e => by simp [hstate'] at e, fun e => by simp [hstate'] at e, fun _ => hbits'.trans (hbits ha)⟩

theorem contextOk_finalContext (c : ShaContext) : ContextOk (finalContext c) := by
  obtain ⟨hfill, hstate, -⟩ := finalContext_bounds c
  exact ⟨by omega, fun e => by simp [hstate] at e, fun _ => hfill, fun e => by simp [hstate] at e⟩

/-- The completion of a command in flight keeps the state coherent: its checks still hold (10_state R40, R41). -/
theorem coherent_completion {s : State} {c : Inflight} (h : Coherent s) (hc : s.inflight = some c)
    (hr : s.resetHeld = false) : Coherent (retire (completed c s)) where
  errorRecord := by simpa [ErrorRecordOk] using h.errorRecord
  cipher := by
    rw [retire_cipher, completed_cipher]
    cases c with
    | keyexp k keys => exact cipherOk_installKey k keys
    | _ => exact h.cipher
  context := by
    have hin := h.inflight
    rw [InflightOk, hc] at hin
    rw [retire_sha, completed_sha]
    cases c with
    | init => exact contextOk_initContext
    | update n d => exact contextOk_updateContext _ h.context hin.2.2
    | final => exact contextOk_finalContext s.sha
    | _ => exact h.context
  inflight := trivial
  resetHeld := resetHeldOk_of_released (by simpa using hr)

/-- Settles O30: each thing a step can be keeps the state coherent. -/
theorem stepsKeepTheStateCoherent : Obligations.StepsKeepTheStateCoherent := by
  intro s t h hst
  cases stepTo_of_step hst with
  | resets he => exact coherent_setResetPin _ (coherent_withModelFields h _ _ _ _)
  | idles hm => exact coherent_withModelFields h _ _ _ _
  | completes hm hc hr => exact coherent_completion (coherent_withModelFields h _ _ _ _) hc hr
  | answers rest r d => exact coherent_withModelFields h _ _ _ _
  | rejects hr he hne => exact coherent_raiseCmdError (coherent_withModelFields h _ _ _ _) hr hne
  | accepts hr he hok => exact coherent_accept (coherent_withModelFields h _ _ _ _) hr (accepted_of_issueError_none hok)
  | writes hr he => exact coherent_respond _ (coherent_writeRegister _ _ (coherent_withModelFields h _ _ _ _) hr)

/-- Settles O29: the reset values with reset released. -/
theorem resetIsCoherent : Obligations.ResetIsCoherent := coherent_hardReset false State.reset

/-! ## What changes only by its own events -/

/-- Settles O32: only a completion writes the context and AES_DOUT. -/
theorem resultsChangeOnlyAtCompletionOrReset : Obligations.ResultsChangeOnlyAtCompletionOrReset := by
  intro s t hst
  cases stepTo_of_step hst with
  | resets he => exact ⟨fun _ => .inl (resetMoves_of_events he), fun _ => .inl (resetMoves_of_events he)⟩
  | @completes c hm hc hr =>
    refine ⟨fun hsha => .inr ⟨hm, rfl, rfl, ?_⟩, fun hout => .inr ⟨hm, rfl, rfl, ?_⟩⟩
    · rw [retire_sha, completed_sha] at hsha
      cases c <;> simp_all
    · rw [retire_aesDout, completed_aesDout] at hout
      cases c <;> simp_all
  | idles hm => simp
  | answers rest r d => simp
  | rejects hr he hne => simp
  | accepts hr he hok => simp
  | writes hr he => simp

/-- Settles O33: a step that is no register write leaves the input registers, and a register write changes its own. -/
theorem inputRegistersChangeOnlyByTheirOwnWrite : Obligations.InputRegistersChangeOnlyByTheirOwnWrite := by
  intro s t hst hnr
  cases stepTo_of_step hst with
  | resets he => exact absurd (resetMoves_of_events he) hnr
  | @writes r v rest hr he =>
    simp only [respond_ie, respond_key, respond_aesDin, respond_shaDin, writeRegister_ie, writeRegister_key_getElem,
      writeRegister_aesDin_getElem, writeRegister_shaDin_getElem, he, List.head?_cons]
    refine ⟨fun h => ?_, fun k h => ?_, fun k h => ?_, fun k h => ?_⟩ <;> split at h <;> simp_all
  | idles hm => simp
  | completes hm hc hr => simp
  | answers rest r d => simp
  | rejects hr he hne => simp
  | accepts hr he hok => simp

/-- Settles O34: of the things a step can be, DONE, ERR and ERRCODE change by those their rules name. -/
theorem doneAndErrChangeOnlyAsTheirRulesSay : Obligations.DoneAndErrChangeOnlyAsTheirRulesSay := by
  intro s t hst hnr
  cases stepTo_of_step hst with
  | resets he => exact absurd (resetMoves_of_events he) hnr
  | idles hm => simp_all
  | completes hm hc hr => simp_all
  | answers rest r d => simp_all
  | @rejects v rest hr he hne =>
    have hv : s.events.head? = some (cmdWrite v) := by rw [he]; rfl
    exact ⟨by simp_all, by simp_all, fun _ _ => ⟨rfl, rfl, v, hv⟩, by simp, fun _ => ⟨v, .inl ⟨hv, rfl⟩⟩⟩
  | accepts hr he hok =>
    have hidle := inflight_of_issueError_none hok
    exact ⟨by simp, fun _ _ => .inl ⟨hidle, by simp⟩, by simp_all, by simp_all, by simp⟩
  | @writes r v rest hr he =>
    simp only [respond_done, respond_err, respond_errcode, writeRegister_done, writeRegister_err,
      writeRegister_errcode, respond_inflight, writeRegister_inflight]
    by_cases hs : r = .status
    · have hv : s.events.head? = some (wrEvent .status v) := by rw [he, hs]; rfl
      simp only [hs, if_true, true_and]
      refine ⟨fun h0 h1 => by simp [h0] at h1, fun h1 h0 => .inr ⟨v, hv, by simpa [h1] using h0⟩,
        fun h0 h1 => by simp [h0] at h1, fun h1 h0 => ⟨v, hv, by simpa [h1] using h0⟩, fun hne => ?_⟩
      split at hne
      · next hbit => exact ⟨v, .inr ⟨hv, hbit, if_pos hbit⟩⟩
      · exact absurd rfl hne
    · simp_all

/-! ## AES commands and SHA commands (10_state R46) -/

/-- The SHA commands; the others are the AES commands. -/
def isSha : Instr → Bool
  | .aesKeyexp _ => false
  | .aesEnc => false
  | .aesDec => false
  | .shaInit => true
  | .shaUpdate _ => true
  | .shaFinal => true

/-- In the engine's turn a command does nothing, or completes a command in flight of its own kind. -/
theorem exec_engine_cases (i : Instr) (s : State) (h : s.turn = .engine) :
    exec i s = .next s ∨ ∃ c, s.inflight = some c ∧ c.writesSha = isSha i ∧ exec i s = .next (retire (completed c s)) := by
  cases i
  all_goals
    simp only [exec, execAesKeyexp, execAesEnc, execAesDec, execShaInit, execShaUpdate, execShaFinal]
    split
    · next hhost => cases h.symm.trans hhost
    · exact .inr ⟨_, by assumption, rfl, rfl⟩
    · exact .inl rfl

/-- What a command can do: nothing, an error, its acceptance, or a completion of its own kind. -/
theorem exec_cases {i : Instr} {s t : State} (h : exec i s = .next t) :
    t = s ∨ (∃ code, t = raiseCmdError code s) ∨ (∃ c, t = accept c s) ∨
      ∃ c, s.inflight = some c ∧ c.writesSha = isSha i ∧ t = retire (completed c s) := by
  cases ht : s.turn with
  | host =>
    rcases exec_host i s ht with ⟨code, e, _⟩ | ⟨c, e, _⟩ <;> cases e.symm.trans h
    · exact .inr (.inl ⟨code, rfl⟩)
    · exact .inr (.inr (.inl ⟨c, rfl⟩))
  | engine =>
    rcases exec_engine_cases i s ht with e | ⟨c, hin, hc, e⟩ <;> cases e.symm.trans h
    · exact .inl rfl
    · exact .inr (.inr (.inr ⟨c, hin, hc, rfl⟩))

/-- The completion of an AES command leaves the context. -/
theorem completed_sha_of_aes {c : Inflight} (h : c.writesSha = false) (s : State) : (completed c s).sha = s.sha := by
  rw [completed_sha]
  cases c <;> simp_all [Inflight.writesSha]

/-- The completion of a SHA command leaves the installed key and AES_DOUT. -/
theorem completed_aes_of_sha {c : Inflight} (h : c.writesSha = true) (s : State) :
    (completed c s).cipher = s.cipher ∧ (completed c s).aesDout = s.aesDout := by
  rw [completed_cipher, completed_aesDout]
  cases c <;> simp_all [Inflight.writesSha]

/-- No command writes an input register. -/
theorem exec_frame {i : Instr} {s t : State} (h : exec i s = .next t) :
    t.key = s.key ∧ t.aesDin = s.aesDin ∧ t.shaDin = s.shaDin := by
  rcases exec_cases h with rfl | ⟨code, rfl⟩ | ⟨c, rfl⟩ | ⟨c, _, _, rfl⟩ <;> simp

theorem exec_sha_of_aes {i : Instr} {s t : State} (hi : isSha i = false) (h : exec i s = .next t) : t.sha = s.sha := by
  rcases exec_cases h with rfl | ⟨code, rfl⟩ | ⟨c, rfl⟩ | ⟨c, _, hc, rfl⟩
  · rfl
  · rfl
  · rfl
  · exact completed_sha_of_aes (hc.trans hi) s

theorem exec_aes_of_sha {i : Instr} {s t : State} (hi : isSha i = true) (h : exec i s = .next t) :
    t.cipher = s.cipher ∧ t.aesDout = s.aesDout := by
  rcases exec_cases h with rfl | ⟨code, rfl⟩ | ⟨c, rfl⟩ | ⟨c, _, hc, rfl⟩
  · exact ⟨rfl, rfl⟩
  · exact ⟨rfl, rfl⟩
  · exact ⟨rfl, rfl⟩
  · exact completed_aes_of_sha (hc.trans hi) s

/-- Settles O35: no command writes an input register, and a completion writes the state of its command's kind. -/
theorem aesAndShaStateAreDisjoint : Obligations.AesAndShaStateAreDisjoint := by
  intro i s t h
  obtain ⟨hkey, hdin, hsdin⟩ := exec_frame h
  refine ⟨fun hi => ?_, fun hi => ?_⟩
  · have haes : isSha i = false := by rcases hi with ⟨k, rfl⟩ | rfl | rfl <;> rfl
    exact ⟨exec_sha_of_aes haes h, hsdin⟩
  · have hsha : isSha i = true := by rcases hi with rfl | ⟨n, rfl⟩ | rfl <;> rfl
    obtain ⟨hcipher, hdout⟩ := exec_aes_of_sha hsha h
    exact ⟨hcipher, hdin, hdout, hkey⟩

/-! ## Reset, the interrupt level, and the first half of a command -/

/-- The reset values are those of the table of 10_state R48, at either level of the reset input. -/
theorem atReset_hardReset (b : Bool) (s : State) : AtReset { hardReset s with resetHeld := b } := by
  simp [AtReset, State.busy, State.irq, State.reset, CipherState.reset, ShaContext.reset, KeySize.code]

/-- Settles O27: an assertion, and a release of what was asserted, give the reset values. -/
theorem resetGivesTheResetValues : Obligations.ResetGivesTheResetValues := by
  intro s rest
  refine ⟨fun he => ⟨_, step_resetPin he, ?_⟩, fun hr he => ⟨_, step_resetPin he, ?_⟩⟩
  · exact ⟨atReset_hardReset true _, rfl, rfl⟩
  · have hrel : setResetPin false { s with events := rest } =
        { hardReset { s with events := rest } with resetHeld := false } := if_pos (by simp [hr])
    rw [hrel]
    exact ⟨atReset_hardReset false _, rfl, rfl⟩

/-- Settles O36: the level is read off the state after each of the four events. -/
theorem irqFollowsDoneAndErr : Obligations.IrqFollowsDoneAndErr := by
  intro s t v rest hr hst
  refine ⟨fun hie hm hin => ?_, fun hie he hne => ?_, fun he => ?_, fun he => ?_⟩
  · obtain ⟨c, hc⟩ := Option.ne_none_iff_exists'.mp hin
    have hdone := (step_of_engineMoves hm).trans (engineStep_inflight (c := c) hr hc)
    cases hdone.symm.trans hst
    simp [State.irq, hie]
  · cases (step_cmdWrite_of_error hr he hne).symm.trans hst
    simp [State.irq, hie]
  · cases (step_wrEvent hr (by decide) he).symm.trans hst
    simp [State.irq, writeRegister_done, writeRegister_err, writeRegister_ie]
  · cases (step_wrEvent hr (by decide) he).symm.trans hst
    simp [State.irq, writeRegister_done, writeRegister_err, writeRegister_ie]

/-- Settles O1: a CMD write issues its word, and the word decodes to the command. -/
theorem stepRunsTheDecodedCommand : Obligations.StepRunsTheDecodedCommand := by
  intro s v i rest hr he hd
  rw [step_cmdWrite hr he, issueWord, hd]

/-! ## The STATUS word (10_state R25, R26) -/

/-- A read of STATUS answers its word, whatever is in flight. -/
theorem step_rdEvent_status {s : State} {rest : List Event} (hr : s.resetHeld = false)
    (he : s.events = rdEvent .status :: rest) :
    step s = .next { s with events := rest, response := .readData s.statusWord } := step_rdEvent hr he

/-- The fields of the STATUS word wider than a bit: ERRCODE, KSZ, the context state, and the reserved bits above. -/
theorem statusWord_fields (s : State) :
    s.statusWord.extractLsb' 4 4 = BitVec.ofNat 4 s.errcode.code ∧
      s.statusWord.extractLsb' 9 2 = BitVec.ofNat 2 s.cipher.ksz.code ∧
      s.statusWord.extractLsb' 12 2 = BitVec.ofNat 2 s.sha.state.code ∧ s.statusWord.extractLsb' 14 18 = 0 := by
  unfold State.statusWord
  refine ⟨?_, ?_, ?_, ?_⟩ <;> repeat rw [BitVec.extractLsb'_append_eq_of_le (by omega)]
  · exact BitVec.extractLsb'_append_eq_right
  · exact BitVec.extractLsb'_append_eq_right
  · exact BitVec.extractLsb'_append_eq_right
  · exact BitVec.extractLsb'_eq_self

/-- The bits of the STATUS word that stand alone. -/
theorem statusWord_bits (s : State) :
    s.statusWord.getLsbD 0 = s.busy ∧ s.statusWord.getLsbD 1 = s.done ∧ s.statusWord.getLsbD 2 = s.err ∧
      s.statusWord.getLsbD 3 = false ∧ s.statusWord.getLsbD 8 = s.cipher.keyvalid ∧
      s.statusWord.getLsbD 11 = false := by
  refine ⟨?_, ?_, ?_, ?_, ?_, ?_⟩ <;> simp only [State.statusWord, BitVec.getLsbD_append] <;> simp

/-- Settles O20: the word read is the STATUS word. -/
theorem statusReadIsExact : Obligations.StatusReadIsExact := by
  intro s rest hr he
  obtain ⟨hbusy, hdone, herr, h3, hkey, h11⟩ := statusWord_bits s
  obtain ⟨herrcode, hksz, hstate, hreserved⟩ := statusWord_fields s
  refine ⟨s.statusWord, step_rdEvent_status hr he, hbusy, hdone, herr, h3, ?_, hkey, ?_, h11, ?_, hreserved⟩
  · rw [herrcode]; cases s.errcode <;> rfl
  · rw [hksz]; cases s.cipher.ksz <;> rfl
  · rw [hstate]; cases s.sha.state <;> rfl

/-- The bits a STATUS write keeps, field by field as the STATUS word is laid out. -/
theorem status_keepMask (v : Word) :
    (~~~((if v.getLsbD 1 then 0x00000002 else 0) ||| (if v.getLsbD 2 then 0x000000F4 else 0)) : Word) =
      BitVec.allOnes 18 ++ BitVec.allOnes 2 ++ BitVec.allOnes 1 ++ BitVec.allOnes 2 ++ BitVec.allOnes 1 ++
        (if v.getLsbD 2 then 0#4 else BitVec.allOnes 4) ++ BitVec.allOnes 1 ++ BitVec.ofBool (!v.getLsbD 2) ++
        BitVec.ofBool (!v.getLsbD 1) ++ BitVec.allOnes 1 := by
  cases v.getLsbD 1 <;> cases v.getLsbD 2 <;> decide

/-- A STATUS write keeps every field of the STATUS word but those it clears. -/
theorem statusWord_writeStatus (v : Word) (s : State) :
    (writeStatus v s).statusWord = s.statusWord &&&
      ~~~((if v.getLsbD 1 then 0x00000002 else 0) ||| (if v.getLsbD 2 then 0x000000F4 else 0)) := by
  have hbusy : (writeStatus v s).busy = s.busy := by simp [State.busy]
  have herrcode : BitVec.ofNat 4 (writeStatus v s).errcode.code =
      BitVec.ofNat 4 s.errcode.code &&& (if v.getLsbD 2 then 0#4 else BitVec.allOnes 4) := by
    rw [writeStatus_errcode]
    cases v.getLsbD 2
    · exact BitVec.and_allOnes.symm
    · exact BitVec.and_zero.symm
  rw [status_keepMask, State.statusWord, State.statusWord]
  repeat rw [BitVec.and_append]
  rw [hbusy, herrcode, writeStatus_sha, writeStatus_cipher, writeStatus_err, writeStatus_done]
  simp only [BitVec.and_allOnes, BitVec.ofBool_and_ofBool]

/-- Settles O23: the CORE's answer is no part of the STATUS word. -/
theorem statusWriteOnlyClears : Obligations.StatusWriteOnlyClears := by
  intro s v rest hr he
  exact ⟨_, step_wrEvent hr (by decide) he, statusWord_writeStatus v { s with events := rest }⟩

/-! ## What a read cannot tell apart (10_state R37, R40, R41) -/

/-- A read is answered and changes nothing (20_memory R61). -/
theorem hostAccess_read_answers {a : BusAddr} {bytes : Nat} {s t : State}
    (h : hostAccess { addr := a, bytes := bytes, op := .read } s = .next t) :
    ∃ r d, t = { s with response := r, draws := d } := by
  rcases hostAccess_cases h with ht | ⟨v, _, hw, _⟩ | ⟨r, v, _, _, hw, _⟩
  · exact ht
  · cases hw
  · cases hw

theorem writesSha_eq (c : Inflight) : c.writesSha = isSha c.instr := by cases c <;> rfl

/-- The commands whose result registers are AES_DOUT0..3 (70_reset_and_hazards R239). -/
def writesAesDoutOf (i : Instr) : Bool := i = .aesEnc || i = .aesDec

theorem writesAesDout_eq (c : Inflight) : c.writesAesDout = writesAesDoutOf c.instr := by cases c <;> rfl

/-- The state with its hidden parts replaced: the key registers, the schedule's words, the hash buffer and the record in
flight. -/
def withHidden (key : Vector Word 8) (rk : Vector Word 60) (buf : Vector Byte 64) (c : Option Inflight) (s : State) :
    State :=
  { s with key := key, cipher := { s.cipher with rk := rk }, sha := { s.sha with buf := buf }, inflight := c }

theorem accessRefused_read_withHidden (key : Vector Word 8) (rk : Vector Word 60) (buf : Vector Byte 64)
    (c : Option Inflight) (s : State) :
    accessRefused .read (withHidden key rk buf c s) = withHidden key rk buf c (accessRefused .read s) := by
  cases hr : s.resetHeld <;> cases hd : Config.resetRefuses s.draws <;>
    simp [accessRefused, withHidden, hr, hd, respond, respondAny32]

section
variable (key : Vector Word 8) (rk : Vector Word 60) (buf : Vector Byte 64) {c : Option Inflight} {s : State}
  (hc : c.map Inflight.instr = s.inflight.map Inflight.instr)
include hc

/-- BUSY shows only that a command is in flight. -/
theorem busy_withHidden : (withHidden key rk buf c s).busy = s.busy := by
  have h := congrArg Option.isSome hc
  simpa [State.busy, withHidden] using h

/-- Which reads are free depends on the command alone, not on its snapshot. -/
theorem resultPending_withHidden (r : Reg) : (withHidden key rk buf c s).resultPending r = s.resultPending r := by
  have any_eq : ∀ (f : Inflight → Bool) (g : Instr → Bool), (∀ x, f x = g x.instr) → c.any f = s.inflight.any f := by
    intro f g hfg
    have h := congrArg (Option.any g) hc
    obtain rfl : f = g ∘ Inflight.instr := funext hfg
    rwa [Option.any_map, Option.any_map] at h
  have hsha := any_eq Inflight.writesSha isSha writesSha_eq
  have hdout := any_eq Inflight.writesAesDout writesAesDoutOf writesAesDout_eq
  cases r with
  | shaFill => exact hsha
  | shaBitlenLo => exact hsha
  | shaBitlenHi => exact hsha
  | shaDigest => exact hsha
  | aesDout => exact hdout
  | _ => rfl

/-- No register shows a hidden part. -/
theorem regValue_withHidden (r : Reg) : (withHidden key rk buf c s).regValue r = s.regValue r := by
  cases r with
  | status => simp only [State.regValue, State.statusWord, busy_withHidden key rk buf hc]; rfl
  | _ => rfl

theorem readRegister_withHidden (r : Reg) :
    readRegister r (withHidden key rk buf c s) = withHidden key rk buf c (readRegister r s) := by
  simp only [readRegister, resultPending_withHidden key rk buf hc, regValue_withHidden key rk buf hc]
  split <;> rfl

/-- A read does the same whatever the hidden parts are, and leaves them. -/
theorem hostAccess_read_withHidden {a : BusAddr} {bytes : Nat} {t : State}
    (h : hostAccess { addr := a, bytes := bytes, op := .read } s = .next t) :
    hostAccess { addr := a, bytes := bytes, op := .read } (withHidden key rk buf c s) =
      .next (withHidden key rk buf c t) := by
  have hheld : (withHidden key rk buf c s).resetHeld = s.resetHeld := rfl
  cases a with
  | outside n => cases h; rfl
  | window off =>
    simp only [hostAccess, hheld, accessRegister, readRegister_withHidden key rk buf hc,
      accessRefused_read_withHidden] at h ⊢
    split_ifs at h ⊢ <;> cases h <;> rfl

end

/-- Settles O26: the answer is the same, and the read leaves the hidden parts as they are. -/
theorem readsDoNotRevealHiddenState : Obligations.ReadsDoNotRevealHiddenState := by
  intro s t key rk buf c a bytes rest he hc hst
  rw [step_access he] at hst
  have hhidden := hostAccess_read_withHidden key rk buf (s := { s with events := rest }) hc hst
  obtain ⟨r, d, rfl⟩ := hostAccess_read_answers hst
  exact (step_access (s := withHidden key rk buf c s) he).trans hhidden

end Sys2Proof.Machine
end

section
/-! SUPPORT. Proofs of the statements about the memory interface (20_memory): the register map as a case list over offsets,
then the host accesses inside the window and outside it. -/

namespace Sys2Proof.Machine

open Sys2Proof.Safety

/-! ## The register map over byte offsets (10_state R21) -/

/-- Each aligned offset is the offset of a register. -/
theorem exists_offset_eq {off : BitVec 8} (h : off.toNat % 4 = 0) : ∃ r : Reg, off = r.offset :=
  ⟨regOfOffset off, (offset_regOfOffset off h).symm⟩

/-- CMD is the register at 0x010. -/
theorem offset_toNat_eq_cmd_iff (r : Reg) : r.offset.toNat = 0x010 ↔ r = .cmd := by
  refine ⟨fun h => ?_, fun h => h ▸ rfl⟩
  have hoff : r.offset = Reg.cmd.offset := BitVec.eq_of_toNat_eq h
  rw [← regOfOffset_offset r, hoff, regOfOffset_offset]

/-- The offset of a word of a register group does not wrap. -/
theorem groupOffset_toNat {n : Nat} (k : Fin n) (base : Nat) (h : base + 4 * n ≤ 256) :
    (BitVec.ofNat 8 (base + 4 * k.val)).toNat = base + 4 * k.val := by
  rw [BitVec.toNat_ofNat]
  exact Nat.mod_eq_of_lt (by omega)

@[simp] theorem offset_toNat_key (k : Fin 8) : (Reg.key k).offset.toNat = 0x20 + 4 * k.val :=
  groupOffset_toNat k _ (by decide)
@[simp] theorem offset_toNat_aesDin (k : Fin 4) : (Reg.aesDin k).offset.toNat = 0x40 + 4 * k.val :=
  groupOffset_toNat k _ (by decide)
@[simp] theorem offset_toNat_aesDout (k : Fin 4) : (Reg.aesDout k).offset.toNat = 0x50 + 4 * k.val :=
  groupOffset_toNat k _ (by decide)
@[simp] theorem offset_toNat_shaDigest (k : Fin 8) : (Reg.shaDigest k).offset.toNat = 0x60 + 4 * k.val :=
  groupOffset_toNat k _ (by decide)
@[simp] theorem offset_toNat_shaDin (k : Fin 16) : (Reg.shaDin k).offset.toNat = 0x80 + 4 * k.val :=
  groupOffset_toNat k _ (by decide)
@[simp] theorem offset_toNat_reserved (k : Fin 16) : (Reg.reserved k).offset.toNat = 0xC0 + 4 * k.val :=
  groupOffset_toNat k _ (by decide)

/-! ## Reads (20_memory R61, 70_reset_and_hazards R239) -/

/-- The value of a register is the value the map lists at its offset. -/
theorem regValue_eq_windowValue (r : Reg) {s : State} (hf : s.sha.fill < 64) :
    s.regValue r = windowValue r.offset.toNat s := by
  cases r with
  | ctrl => cases hie : s.ie <;> simp [State.regValue, windowValue, Reg.offset, hie]
  | shaFill => simp [State.regValue, windowValue, Reg.offset, Nat.mod_eq_of_lt hf]
  | shaBitlenLo => rfl
  | shaBitlenHi => rfl
  | aesDin k => simp (disch := omega) [State.regValue, windowValue, if_pos, if_neg]
  | aesDout k => simp (disch := omega) [State.regValue, windowValue, if_pos, if_neg]
  | shaDigest k => simp (disch := omega) [State.regValue, windowValue, if_pos, if_neg]
  | shaDin k => simp (disch := omega) [State.regValue, windowValue, if_pos, if_neg]
  | key k => simp (disch := omega) only [State.regValue, windowValue, offset_toNat_key, if_neg]
  | reserved k => simp (disch := omega) only [State.regValue, windowValue, offset_toNat_reserved, if_neg]
  | _ => rfl

/-- The result registers of a command, as the rule lists their offsets: AES_DOUT0..3, and the SHA result registers. -/
theorem resultOffset_iff (c : Inflight) (off : Nat) :
    resultOffset c off ↔
      (c.writesAesDout = true ∧ 0x050 ≤ off ∧ off < 0x060) ∨
      (c.writesSha = true ∧ ((0x014 ≤ off ∧ off < 0x020) ∨ (0x060 ≤ off ∧ off < 0x080))) := by
  cases c <;> simp [resultOffset, Inflight.writesAesDout, Inflight.writesSha]

/-- A register is a result register of the command in flight exactly when its offset is listed for that command. -/
theorem resultPending_iff (r : Reg) {s : State} {c : Inflight} (hc : s.inflight = some c) :
    s.resultPending r = true ↔ resultOffset c r.offset.toNat := by
  rw [resultOffset_iff]
  cases r with
  | key k => simp [State.resultPending]; omega
  | aesDin k => simp [State.resultPending]; omega
  | aesDout k =>
    have hin : 80 + 4 * k.val < 96 := by omega
    simp [State.resultPending, hc, hin]
    omega
  | shaDigest k => simp [State.resultPending, hc]; omega
  | shaDin k => simp [State.resultPending]; omega
  | reserved k => simp [State.resultPending]; omega
  | _ => simp [State.resultPending, Reg.offset, hc]

/-- With nothing in flight no register is a result register. -/
theorem resultPending_of_idle (r : Reg) {s : State} (h : s.inflight = none) : s.resultPending r = false := by
  cases r <;> simp [State.resultPending, h]

/-- Settles O21: the offset names a register, which reads as its value or, while it is a pending result, as a free value. -/
theorem readsReturnTheRegisterOrAFreeValue : Obligations.ReadsReturnTheRegisterOrAFreeValue := by
  intro s off rest hr hoff hf he
  obtain ⟨r, rfl⟩ := exists_offset_eq hoff
  rw [step_rdEvent hr he, readRegister]
  refine ⟨fun hno => ?_, fun c hc hres => ?_⟩
  · have hpending : s.resultPending r = false := by
      cases hc : s.inflight with
      | none => exact resultPending_of_idle r hc
      | some c => exact Bool.eq_false_iff.mpr fun hp => hno c hc ((resultPending_iff r hc).mp hp)
    rw [← regValue_eq_windowValue r hf]
    exact congrArg _ (if_neg (Bool.eq_false_iff.mp hpending))
  · exact congrArg _ (if_pos ((resultPending_iff r hc).mpr hres))

/-! ## Writes (20_memory R62) -/

/-- A STATUS write as one record update (10_state R26). -/
theorem writeStatus_eq (v : Word) (s : State) :
    writeStatus v s =
      { s with
        done := s.done && !v.getLsbD 1
        err := s.err && !v.getLsbD 2
        errcode := if v.getLsbD 2 then .none else s.errcode } := by
  unfold writeStatus
  cases v.getLsbD 1 <;> cases v.getLsbD 2 <;> simp [clearDone, clearErr]

/-- Writing a word of a register group, by its index. -/
theorem set_eq_setIfInBounds {n : Nat} (ws : Vector Word n) (k : Fin n) (v : Word) :
    ws.set k v = ws.setIfInBounds k v := by
  apply Vector.ext
  intro i hi
  rw [Vector.getElem_set, Vector.getElem_setIfInBounds]

/-- The effect of a register write is the effect the case list gives at its offset. -/
theorem writeRegister_eq_windowWrite (r : Reg) (v : Word) (s : State) :
    writeRegister r v s = windowWrite r.offset.toNat v s := by
  cases r with
  | status => exact writeStatus_eq v s
  | key k => simp (disch := omega) [writeRegister, windowWrite, if_pos, if_neg, set_eq_setIfInBounds]
  | aesDin k => simp (disch := omega) [writeRegister, windowWrite, if_pos, if_neg, set_eq_setIfInBounds]
  | shaDin k => simp (disch := omega) [writeRegister, windowWrite, if_pos, if_neg, set_eq_setIfInBounds]
  | aesDout k => simp (disch := omega) only [writeRegister, windowWrite, offset_toNat_aesDout, if_neg]
  | shaDigest k => simp (disch := omega) only [writeRegister, windowWrite, offset_toNat_shaDigest, if_neg]
  | reserved k => simp (disch := omega) only [writeRegister, windowWrite, offset_toNat_reserved, if_neg]
  | _ => rfl

/-- A register write and the sequence of events do not touch each other. -/
theorem writeRegister_withEvents (r : Reg) (v : Word) (s : State) (rest : List Event) :
    writeRegister r v { s with events := rest } = { writeRegister r v s with events := rest } := by
  cases r with
  | status => simp only [writeRegister, writeStatus_eq]
  | _ => rfl

/-- Settles O22: the offset names CMD, whose write is issued, or another register, which is written. -/
theorem writesHaveTheEffectOfTheirOffset : Obligations.WritesHaveTheEffectOfTheirOffset := by
  intro s off v rest hr hoff he
  obtain ⟨r, rfl⟩ := exists_offset_eq hoff
  rw [ne_eq, offset_toNat_eq_cmd_iff]
  refine ⟨fun hcmd => ?_, fun hne => ?_⟩
  · subst hcmd
    exact step_cmdWrite hr he
  · rw [step_wrEvent hr hne he, writeRegister_withEvents, writeRegister_eq_windowWrite]
    rfl

/-! ## Refused accesses and accesses outside the window (20_memory R60, R63 to R65) -/

/-- A narrow, wide or misaligned access is refused, at either level of the reset input. -/
theorem hostAccess_refused {off : BitVec 8} {bytes : Nat} (h : bytes ≠ 4 ∨ off.toNat % 4 ≠ 0) (op : BusOp) (s : State) :
    hostAccess { addr := .window off, bytes := bytes, op := op } s = .next (accessRefused op s) := by
  have hok : ¬accessOk off bytes = true := by
    rw [accessOk, Bool.and_eq_true, decide_eq_true_eq, decide_eq_true_eq]
    omega
  exact if_neg hok

/-- A refused write, and a refused read with reset released, gets a bus error. -/
theorem accessRefused_eq_busError {op : BusOp} {s : State} (h : s.resetHeld = false ∨ op ≠ .read) :
    accessRefused op s = respond .busError s := by
  cases op with
  | write v => rfl
  | read =>
    have hr : s.resetHeld = false := h.resolve_right fun hne => hne rfl
    simp [accessRefused, hr]

/-- A refused read under reset gets a bus error or a free value (log 9). -/
theorem accessRefused_read_inReset {s : State} (h : s.resetHeld = true) :
    accessRefused .read s = { s with response := .busError, draws := s.draws + 1 } ∨
      accessRefused .read s =
        { s with response := .readData (Config.any32 (s.draws + 1)), draws := s.draws + 1 + 1 } := by
  cases hd : Config.resetRefuses s.draws
  · exact .inr (by simp [accessRefused, h, hd, respondAny32])
  · exact .inl (by simp [accessRefused, h, hd, respond])

/-- Settles O24: the access is refused, and a refusal is one of these answers. -/
theorem otherAccessesGetABusError : Obligations.OtherAccessesGetABusError := by
  intro s off bytes op rest hbad he
  rw [step_access he, hostAccess_refused hbad]
  refine ⟨fun h => ?_, fun hr hop => ?_⟩
  · rw [accessRefused_eq_busError (s := { s with events := rest }) h]
    rfl
  · subst hop
    rcases accessRefused_read_inReset (s := { s with events := rest }) hr with e | e
    · exact ⟨_, .inl (congrArg _ e)⟩
    · exact ⟨_, .inr ⟨_, congrArg _ e⟩⟩

/-- A bus address in the window is decoded to its offset. -/
theorem busAddr_base_add (off : BitVec 8) : busAddr (Config.base + off.toNat) = .window off := by
  have hin : Config.base ≤ Config.base + off.toNat ∧ Config.base + off.toNat < Config.base + 0x100 := by omega
  rw [busAddr, if_pos hin, Nat.add_sub_cancel_left, BitVec.ofNat_toNat, BitVec.setWidth_eq]

/-- A bus address below or above the window is not decoded. -/
theorem busAddr_outside {a : Nat} (h : a < Config.base ∨ Config.base + 0x100 ≤ a) : busAddr a = .outside a :=
  if_neg (by omega)

/-- Settles O25: the select decodes the window alone, and an access that is not decoded gets no answer. -/
theorem onlyTheWindowIsDecoded : Obligations.OnlyTheWindowIsDecoded := by
  refine ⟨Nat.mul_mod_right 0x100 Config.basePage, busAddr_base_add, fun a => busAddr_outside, ?_⟩
  intro s a bytes op rest he
  rw [step_access he]
  rfl

end Sys2Proof.Machine
end

section
/-! SUPPORT. Proofs of the statements about the encoding (30_encoding): fields of a word, then the decoder and the encoder
as inverses of each other, the words that are commands, and the operands a command reads. -/

namespace Sys2Proof.Machine

open Sys2Proof.Safety Sys2Proof.Laws

/-! ## Fields of a word (30_encoding R90) -/

/-- The field read where a number was placed is the number, as far as it fits. -/
theorem extractLsb'_ofNat_shiftLeft {w start len : Nat} (k : Nat) (h : start + len ≤ w) :
    (BitVec.ofNat w k <<< start).extractLsb' start len = BitVec.ofNat len k := by
  ext i hi
  have hin : start + i < w := by omega
  have hiw : i < w := by omega
  simp [hin, ← BitVec.getLsbD_eq_getElem, BitVec.getLsbD_ofNat, hi, hiw]

/-- A field put back where it was read is the word with all other bits cleared. -/
theorem ofNat_extractLsb'_shiftLeft {w : Nat} (start len : Nat) (v : BitVec w) :
    BitVec.ofNat w (v.extractLsb' start len).toNat <<< start = v &&& (BitVec.allOnes len).setWidth w <<< start := by
  rw [BitVec.ofNat_toNat]
  ext i hi
  by_cases hs : i < start
  · simp [hs]
  · have hin : start + (i - start) = i := by omega
    have hiw : i - start < w := by omega
    simp [hs, hin, hiw, hi, ← BitVec.getLsbD_eq_getElem, Bool.and_comm]

/-- Fixing all bits of OPC among others fixes OPC. -/
theorem opcOf_of_and_eq {v mask m : Word} (hmask : opcOf mask = BitVec.allOnes 4) (h : v &&& mask = m) :
    opcOf v = opcOf m := by
  rw [← h, opcOf, opcOf, BitVec.extractLsb'_and, ← opcOf.eq_def mask, hmask, BitVec.and_allOnes]

theorem kszOf_encode {ksz : Nat} (h : ksz < 4) : kszOf (encode (.aesKeyexp ksz)) = ksz := by
  rw [kszOf, encode, BitVec.extractLsb'_or, extractLsb'_ofNat_shiftLeft ksz (by decide)]
  simpa using h

theorem lenOf_encode {len : Nat} (h : len < 128) : lenOf (encode (.shaUpdate len)) = len := by
  rw [lenOf, encode, BitVec.extractLsb'_or, extractLsb'_ofNat_shiftLeft len (by decide)]
  simpa using h

/-- A word with the bits of KEYEXP's row is rebuilt from its KSZ field. -/
theorem encode_kszOf {v : Word} (h : v &&& 0xFFFFFFCF = 1) : encode (.aesKeyexp (kszOf v)) = v := by
  calc encode (.aesKeyexp (kszOf v))
      = (v &&& 0xFFFFFFCF) ||| (v &&& 0x00000030) := by rw [h, encode, kszOf, ofNat_extractLsb'_shiftLeft]; rfl
    _ = v &&& BitVec.allOnes 32 := BitVec.and_or_distrib_left.symm
    _ = v := BitVec.and_allOnes

/-- A word with the bits of UPDATE's row is rebuilt from its LEN field. -/
theorem encode_lenOf {v : Word} (h : v &&& 0xFFFF80FF = 5) : encode (.shaUpdate (lenOf v)) = v := by
  calc encode (.shaUpdate (lenOf v))
      = (v &&& 0xFFFF80FF) ||| (v &&& 0x00007F00) := by rw [h, encode, lenOf, ofNat_extractLsb'_shiftLeft]; rfl
    _ = v &&& BitVec.allOnes 32 := BitVec.and_or_distrib_left.symm
    _ = v := BitVec.and_allOnes

/-! ## Decoding and encoding (30_encoding R91 to R97) -/

/-- A word with the bits its opcode's mask asks for decodes to the command of its opcode and fields. -/
theorem decode_of_match {v mask : Word} {i : Instr} (hmask : maskOf (opcOf v) = some mask)
    (hinstr : instrOf (opcOf v) (kszOf v) (lenOf v) = some i) (hv : v &&& mask = (opcOf v).setWidth 32) :
    decode v = .ok i := by
  simp [decode, hmask, hinstr, hv]

/-- Every row fixes the bits of OPC (R92). -/
theorem opcOf_rowMask (i : Instr) : opcOf (EncodesItsRow.row i).1 = BitVec.allOnes 4 := by
  cases i <;> rw [EncodesItsRow.row] <;> decide

/-- The mask of a command's row is the mask of its opcode. -/
theorem maskOf_row (i : Instr) : maskOf (opcOf (EncodesItsRow.row i).2) = some (EncodesItsRow.row i).1 := by
  cases i <;> rfl

/-- The word of a well-formed command has the bits its row fixes (R95). -/
theorem encode_and_row {i : Instr} (h : i.wellFormed = true) :
    encode i &&& (EncodesItsRow.row i).1 = (EncodesItsRow.row i).2 := by
  cases i with
  | aesKeyexp ksz => exact EncodesItsRow.aesKeyexp ksz h
  | shaUpdate len => exact EncodesItsRow.shaUpdate len h
  | _ => rfl

theorem opcOf_encode {i : Instr} (h : i.wellFormed = true) : opcOf (encode i) = opcOf (EncodesItsRow.row i).2 :=
  opcOf_of_and_eq (opcOf_rowMask i) (encode_and_row h)

/-- The fields of a well-formed command's word give its command back. -/
theorem instrOf_encode {i : Instr} (h : i.wellFormed = true) :
    instrOf (opcOf (encode i)) (kszOf (encode i)) (lenOf (encode i)) = some i := by
  rw [opcOf_encode h]
  cases i with
  | aesKeyexp ksz => rw [kszOf_encode (by simpa [Instr.wellFormed] using h)]; rfl
  | shaUpdate len => rw [lenOf_encode (by simpa [Instr.wellFormed] using h)]; rfl
  | _ => rfl

/-- Settles O7: the word has its row's bits, and its fields are the operands. -/
theorem decodeOfEncodeIsTheCommand : Obligations.DecodeOfEncodeIsTheCommand := by
  intro i h
  have hopc := opcOf_encode h
  refine decode_of_match (hopc ▸ maskOf_row i) (instrOf_encode h) ?_
  · rw [hopc, encode_and_row h]; cases i <;> rfl

/-- A command is answered exactly when the condition on the word holds. -/
theorem ite_ok_eq_ok_iff {p : Prop} [Decidable p] {i j : Instr} {e : DecodeError} :
    (if p then Except.ok i else Except.error e) = Except.ok j ↔ p ∧ i = j := by
  split <;> simp [*]

/-- Settles O8: case by case of the decoder's answers, the word is its opcode with its field. -/
theorem encodeOfDecodeIsTheWord : Obligations.EncodeOfDecodeIsTheWord := by
  intro v i h
  have whole {m : Word} (hv : v &&& 0xFFFFFFFF = m) : m = v := hv.symm.trans BitVec.and_allOnes
  rcases decode_cases v with ⟨-, hd⟩ | ⟨-, hd⟩ | ⟨-, hd⟩ | ⟨-, hd⟩ | ⟨-, hd⟩ | ⟨-, hd⟩ | ⟨-, hd⟩ <;> rw [hd] at h
  case inr.inr.inr.inr.inr.inr => cases h
  all_goals obtain ⟨hv, rfl⟩ := ite_ok_eq_ok_iff.mp h
  · exact ⟨decide_eq_true (kszOf_lt v), encode_kszOf hv⟩
  · exact ⟨rfl, whole hv⟩
  · exact ⟨rfl, whole hv⟩
  · exact ⟨rfl, whole hv⟩
  · exact ⟨decide_eq_true (lenOf_lt v), encode_lenOf hv⟩
  · exact ⟨rfl, whole hv⟩

/-! ## The words that are commands (30_encoding R92) -/

/-- The bits that a legal opcode fixes: all but `free(OPC)`. -/
def fixedBits (op : BitVec 4) : Word := if op = 1 then 0xFFFFFFCF else if op = 5 then 0xFFFF80FF else 0xFFFFFFFF

/-- The condition of R92 on a word. -/
abbrev WellFormedWord (v : Word) : Prop :=
  1 ≤ (opcOf v).toNat ∧ (opcOf v).toNat ≤ 6 ∧ v &&& fixedBits (opcOf v) = (opcOf v).setWidth 32

/-- The decoder answers a command exactly for the words of R92. -/
theorem exists_decode_eq_ok_iff (v : Word) : (∃ i, decode v = .ok i) ↔ WellFormedWord v := by
  rcases decode_cases v with ⟨ho, hd⟩ | ⟨ho, hd⟩ | ⟨ho, hd⟩ | ⟨ho, hd⟩ | ⟨ho, hd⟩ | ⟨ho, hd⟩ | ⟨ho, hd⟩
  case inr.inr.inr.inr.inr.inr =>
    rw [hd]
    exact ⟨fun ⟨_, h⟩ => (by cases h), fun ⟨h1, h6, _⟩ => absurd ⟨h1, h6⟩ ho⟩
  all_goals simp [hd, ho, WellFormedWord, fixedBits, ite_ok_eq_ok_iff]

/-- A word that is no command raises E_ILLEGAL on an idle CORE (60_exceptions R205). -/
theorem issueWord_of_not_decode {v : Word} {s : State} (hd : ¬∃ i, decode v = .ok i) (hidle : s.inflight = none) :
    issueWord v s = .next (raiseCmdError .illegal { s with turn := .host }) := by
  cases hv : decode v with
  | ok i => exact absurd ⟨i, hv⟩ hd
  | error e => simp [issueWord, hv, issueIllegal, issue, State.busy, hidle]

/-- Settles O6: the condition of R92, and the error of a word that does not meet it. -/
theorem wellFormedWordsAreThoseOfTheMasks : Obligations.WellFormedWordsAreThoseOfTheMasks := by
  intro v
  refine ⟨exists_decode_eq_ok_iff v, fun s rest hbad hr hidle he => ?_⟩
  have hno : ¬∃ i, decode v = .ok i := fun h => hbad ((exists_decode_eq_ok_iff v).mp h)
  rw [step_cmdWrite hr he]
  exact issueWord_of_not_decode hno hidle

/-- UPDATE's word as a sum: the field lies above the opcode. -/
theorem encode_shaUpdate {len : Nat} (h : len < 128) : encode (.shaUpdate len) = BitVec.ofNat 32 (5 + len * 256) := by
  have hsum : 5 + len * 256 = 5 ||| len <<< 8 := by
    rw [Nat.or_comm, ← Nat.shiftLeft_add_eq_or_of_lt (by decide), Nat.shiftLeft_eq, Nat.add_comm]
  apply BitVec.eq_of_toNat_eq
  rw [hsum, BitVec.toNat_ofNat, Nat.or_mod_two_pow]
  simp [encode, Nat.mod_eq_of_lt (show len < 4294967296 by omega)]

/-- Settles O5: the well-formed words are words of commands, and the illegal ones fail the condition of R92. -/
theorem decodeReadsTheTablesWords : Obligations.DecodeReadsTheTablesWords := by
  have illegal : ∀ v ∈ [0x00000000, 0x00000007, 0x0000000F, 0x00000102, 0x00000041, 0x00008005], ¬WellFormedWord v :=
    List.forall_iff_forall_mem.mp (by decide)
  refine ⟨by decide, by decide, by decide, by decide, by decide, by decide, by decide, fun n hn => ?_, by decide,
    fun v hv i hi => illegal v hv ((exists_decode_eq_ok_iff v).mp ⟨i, hi⟩)⟩
  rw [← encode_shaUpdate hn]
  exact decodeOfEncodeIsTheCommand (.shaUpdate n) (decide_eq_true hn)

/-! ## The operands a command reads (30_encoding R98, R100) -/

/-- Registers that agree on their first m bytes give the same first m bytes. -/
theorem bytesOf_take_congr {n : Nat} {a b : Vector Word n} {m : Nat}
    (h : ∀ i : Fin n, ∀ j < 4, 4 * i.val + j < m → byteOf a[i] j = byteOf b[i] j) :
    (bytesOf a).take m = (bytesOf b).take m := by
  apply List.ext_getElem (by simp)
  intro p ha hb
  obtain ⟨hm, hn⟩ : p < m ∧ p < 4 * n := by simpa using ha
  have hq : p / 4 < n := by omega
  have hbyte : ∀ ws : Vector Word n, (bytesOf ws).getD p 0 = byteOf ws[p / 4] (p % 4) := fun ws => by
    rw [bytesOf_getD ws p hn, List.getD_eq_getElem _ _ (by simpa using hq), Vector.getElem_toList]
  rw [List.getElem_take, List.getElem_take, ← List.getD_eq_getElem _ 0, ← List.getD_eq_getElem _ 0, hbyte, hbyte]
  exact h ⟨p / 4, hq⟩ (p % 4) (by omega) (by simp only; omega)

/-- AES.KEYEXP's completion reads the first Nk key words (R98). -/
theorem installKey_congr {k : KeySize} {a b : Vector Word 8} (h : ∀ i : Fin 8, i.val < k.nk → a[i] = b[i]) :
    installKey k a = installKey k b := by
  have hkey : keyBytes k a = keyBytes k b :=
    bytesOf_take_congr fun i j _ hm => congrArg (byteOf · j) (h i (by omega))
  rw [installKey, installKey, hkey]

/-- Completions that write the same, whatever the state, lead to the same state. -/
theorem exec_inflight_congr {c d : Inflight} {s : State} (ht : s.turn = .engine)
    (h : ∀ t, completed c t = completed d t) :
    exec c.instr { s with inflight := some c } = exec d.instr { s with inflight := some d } := by
  rw [exec_engine c { s with inflight := some c } ht rfl, exec_engine d { s with inflight := some d } ht rfl, h]
  cases d <;> rfl

/-- Settles O19: a completion reads its snapshot through the bytes of R98 and R100 alone. -/
theorem operandsPastTheLengthAreNotRead : Obligations.OperandsPastTheLengthAreNotRead := by
  intro s ht
  refine ⟨fun k a b h => ?_, fun n a b h => ?_⟩
  · have hkey : installKey k a = installKey k b := installKey_congr h
    exact exec_inflight_congr (c := .keyexp k a) (d := .keyexp k b) ht fun t => by rw [completed, completed, hkey]
  · have hbytes : messageBytes n a = messageBytes n b := bytesOf_take_congr h
    exact exec_inflight_congr (c := .update n a) (d := .update n b) ht fun t => by rw [completed, completed, hbytes]

end Sys2Proof.Machine
end

section
/-! SUPPORT. Proofs of the statements about the AES datapath (40_aes_datapath): `gfmul a` as a map that respects XOR and
`xtime`, MixColumns and its inverse as circulants of such maps, and the words a key expansion leaves as they were. -/

namespace Sys2Proof.Machine

/-! ## The laws of `gfmul` (40_aes_datapath R110 to R112) -/

theorem xtime_xor (x y : Byte) : xtime (x ^^^ y) = xtime x ^^^ xtime y := by
  have hreduce : ∀ p q : Bool,
      (if (p ^^ q) = true then 0x1B else 0x00 : Byte) = (if p then 0x1B else 0x00) ^^^ if q then 0x1B else 0x00 := by
    decide
  rw [xtime, xtime, xtime, BitVec.getLsbD_xor, BitVec.shiftLeft_xor_distrib, hreduce]
  ac_rfl

/-- A map of bytes linear over GF(2) that also respects doubling: what multiplication by a fixed byte is. -/
structure XtimeLinear (f : Byte → Byte) : Prop where
  map_xor : ∀ x y, f (x ^^^ y) = f x ^^^ f y
  map_xtime : ∀ x, f (xtime x) = xtime (f x)

theorem XtimeLinear.map_zero {f : Byte → Byte} (hf : XtimeLinear f) : f 0 = 0 := by
  simpa using hf.map_xor 0 0

/-- Such a map can be taken through the passes of R111's loop. -/
theorem XtimeLinear.foldl_gfmulStep {f : Byte → Byte} (hf : XtimeLinear f) (a : Byte) (is : List Nat) (p : Byte × Byte) :
    is.foldl (gfmulStep a) (f p.1, f p.2) = (is.foldl (gfmulStep a) p).map f f := by
  induction is generalizing p with
  | nil => rfl
  | cons i is ih =>
    have hstep : gfmulStep a (f p.1, f p.2) i = (f (gfmulStep a p i).1, f (gfmulStep a p i).2) := by
      simp only [gfmulStep, hf.map_xtime, apply_ite f, hf.map_xor]
    rw [List.foldl_cons, List.foldl_cons, hstep, ih]

theorem XtimeLinear.map_gfmul {f : Byte → Byte} (hf : XtimeLinear f) (a b : Byte) : f (gfmul a b) = gfmul a (f b) := by
  have hfold := hf.foldl_gfmulStep a (List.range 8) (0, b)
  rw [hf.map_zero] at hfold
  exact (congrArg Prod.fst hfold).symm

/-- The passes of R111's loop add up: the loop on a sum is the sum of the loops. -/
theorem foldl_gfmulStep_xor (a : Byte) (is : List Nat) (p q : Byte × Byte) :
    is.foldl (gfmulStep a) (p.1 ^^^ q.1, p.2 ^^^ q.2) =
      ((is.foldl (gfmulStep a) p).1 ^^^ (is.foldl (gfmulStep a) q).1,
        (is.foldl (gfmulStep a) p).2 ^^^ (is.foldl (gfmulStep a) q).2) := by
  induction is generalizing p q with
  | nil => rfl
  | cons i is ih =>
    have hstep : gfmulStep a (p.1 ^^^ q.1, p.2 ^^^ q.2) i =
        ((gfmulStep a p i).1 ^^^ (gfmulStep a q i).1, (gfmulStep a p i).2 ^^^ (gfmulStep a q i).2) := by
      simp only [gfmulStep, xtime_xor]
      split
      · congr 1
        ac_rfl
      · rfl
    rw [List.foldl_cons, List.foldl_cons, List.foldl_cons, hstep, ih]

theorem gfmul_xor (a b c : Byte) : gfmul a (b ^^^ c) = gfmul a b ^^^ gfmul a c := by
  have hfold := congrArg Prod.fst (foldl_gfmulStep_xor a (List.range 8) (0, b) (0, c))
  simp only [BitVec.xor_self] at hfold
  exact hfold

theorem xtimeLinear_xtime : XtimeLinear xtime := ⟨xtime_xor, fun _ => rfl⟩

theorem xtimeLinear_gfmul (a : Byte) : XtimeLinear (gfmul a) :=
  ⟨gfmul_xor a, fun x => (xtimeLinear_xtime.map_gfmul a x).symm⟩

theorem gfmul_zero (a : Byte) : gfmul a 0 = 0 := (xtimeLinear_gfmul a).map_zero

/-- Doubling 1 gives the powers of x in turn, so the loop puts the bits of `a` back together. -/
theorem gfmul_one (a : Byte) : gfmul a 1 = a := by
  revert a
  decide +kernel

theorem gfmul_left_comm (a b c : Byte) : gfmul a (gfmul b c) = gfmul b (gfmul a c) :=
  (xtimeLinear_gfmul a).map_gfmul b c

theorem gfmul_comm (a b : Byte) : gfmul a b = gfmul b a := by
  simpa only [gfmul_one] using gfmul_left_comm a b 1

theorem gfmul_assoc (a b c : Byte) : gfmul (gfmul a b) c = gfmul a (gfmul b c) := by
  rw [gfmul_comm (gfmul a b) c, gfmul_left_comm c a b, gfmul_comm c b]

theorem xor_gfmul (a b c : Byte) : gfmul (a ^^^ b) c = gfmul a c ^^^ gfmul b c := by
  rw [gfmul_comm, gfmul_xor, gfmul_comm c a, gfmul_comm c b]

theorem one_gfmul (a : Byte) : gfmul 1 a = a := by
  rw [gfmul_comm, gfmul_one]

theorem zero_gfmul (a : Byte) : gfmul 0 a = 0 := by
  rw [gfmul_comm, gfmul_zero]

/-- Settles O40: multiplication by a byte respects XOR and `xtime`, so two of them commute, and on 1 that is the law. -/
theorem gfmulLaws : Obligations.GfmulLaws := ⟨gfmul_comm, gfmul_xor, gfmul_one, gfmul_zero⟩

/-! ## The round transforms (40_aes_datapath R115 to R121, R129) -/

theorem invSbox_sbox (x : Byte) : invSbox (sbox x) = x := by
  revert x
  decide +kernel

theorem sbox_invSbox (x : Byte) : sbox (invSbox x) = x := by
  revert x
  decide +kernel

theorem invSubBytes_subBytes (s : Block) : invSubBytes (subBytes s) = s :=
  block_ext fun r _ c _ => by rw [cell_invSubBytes, cell_subBytes, invSbox_sbox]

theorem subBytes_invSubBytes (s : Block) : subBytes (invSubBytes s) = s :=
  block_ext fun r _ c _ => by rw [cell_subBytes, cell_invSubBytes, sbox_invSbox]

/-- A cell depends on its row and column modulo 4 alone. -/
theorem cell_congr (s : Block) {r r' c c' : Nat} (hr : r % 4 = r' % 4) (hc : c % 4 = c' % 4) :
    cell s r c = cell s r' c' := by
  rw [← cell_mod s r c, hr, hc, cell_mod]

theorem invShiftRows_shiftRows (s : Block) : invShiftRows (shiftRows s) = s :=
  block_ext fun r _ c _ => by
    rw [cell_invShiftRows, cell_shiftRows]
    exact cell_congr s (by omega) (by omega)

theorem shiftRows_invShiftRows (s : Block) : shiftRows (invShiftRows s) = s :=
  block_ext fun r _ c _ => by
    rw [cell_shiftRows, cell_invShiftRows]
    exact cell_congr s (by omega) (by omega)

theorem addRoundKey_addRoundKey (s k : Block) : addRoundKey (addRoundKey s k) k = s :=
  block_ext fun r _ c _ => by
    rw [cell_addRoundKey, cell_addRoundKey, BitVec.xor_assoc, BitVec.xor_self, BitVec.xor_zero]

theorem subBytes_shiftRows (s : Block) : subBytes (shiftRows s) = shiftRows (subBytes s) :=
  block_ext fun r _ c _ => by rw [cell_subBytes, cell_shiftRows, cell_shiftRows, cell_subBytes]

theorem invSubBytes_invShiftRows (s : Block) : invSubBytes (invShiftRows s) = invShiftRows (invSubBytes s) :=
  block_ext fun r _ c _ => by rw [cell_invSubBytes, cell_invShiftRows, cell_invShiftRows, cell_invSubBytes]

/-- On every column the circulant matrix whose first row is k0 to k3: the form of R119 and R120. -/
def circulant (k0 k1 k2 k3 : Byte) (s : Block) : Block := blockOfCells fun r c =>
  gfmul k0 (cell s r c) ^^^ gfmul k1 (cell s (r + 1) c) ^^^ gfmul k2 (cell s (r + 2) c) ^^^ gfmul k3 (cell s (r + 3) c)

theorem cell_circulant (k0 k1 k2 k3 : Byte) (s : Block) (r c : Nat) :
    cell (circulant k0 k1 k2 k3 s) r c =
      gfmul k0 (cell s r c) ^^^ gfmul k1 (cell s (r + 1) c) ^^^ gfmul k2 (cell s (r + 2) c) ^^^
        gfmul k3 (cell s (r + 3) c) := by
  have hrow (i : Nat) : cell s (r % 4 + i) (c % 4) = cell s (r + i) c := cell_congr s (by omega) (by omega)
  rw [circulant, cell_blockOfCells, hrow, hrow, hrow, cell_mod]

theorem mixColumns_eq_circulant (s : Block) : mixColumns s = circulant 2 3 1 1 s := by
  simp only [mixColumns, circulant, one_gfmul]

theorem invMixColumns_eq_circulant (s : Block) : invMixColumns s = circulant 14 11 13 9 s := rfl

theorem circulant_one (s : Block) : circulant 1 0 0 0 s = s :=
  block_ext fun r _ c _ => by
    simp only [cell_circulant, one_gfmul, zero_gfmul]
    simp only [BitVec.ofNat_eq_ofNat, BitVec.xor_zero]

/-- Circulants compose to a circulant, whose first row is the cyclic convolution of theirs. -/
theorem circulant_circulant (a0 a1 a2 a3 b0 b1 b2 b3 : Byte) (s : Block) :
    circulant a0 a1 a2 a3 (circulant b0 b1 b2 b3 s) =
      circulant (gfmul a0 b0 ^^^ gfmul a1 b3 ^^^ gfmul a2 b2 ^^^ gfmul a3 b1)
        (gfmul a0 b1 ^^^ gfmul a1 b0 ^^^ gfmul a2 b3 ^^^ gfmul a3 b2)
        (gfmul a0 b2 ^^^ gfmul a1 b1 ^^^ gfmul a2 b0 ^^^ gfmul a3 b3)
        (gfmul a0 b3 ^^^ gfmul a1 b2 ^^^ gfmul a2 b1 ^^^ gfmul a3 b0) s := by
  apply block_ext
  intro r _ c _
  have hwrap (i : Nat) : cell s (r + (i + 4)) c = cell s (r + i) c := cell_congr s (by omega) rfl
  have h4 : cell s (r + 4) c = cell s r c := hwrap 0
  have h5 : cell s (r + 5) c = cell s (r + 1) c := hwrap 1
  have h6 : cell s (r + 6) c = cell s (r + 2) c := hwrap 2
  simp only [cell_circulant, Nat.add_assoc, Nat.reduceAdd, h4, h5, h6, gfmul_xor, xor_gfmul, gfmul_assoc]
  ac_rfl

theorem invMixColumns_mixColumns (s : Block) : invMixColumns (mixColumns s) = s := by
  rw [mixColumns_eq_circulant, invMixColumns_eq_circulant, circulant_circulant]
  exact circulant_one s

theorem mixColumns_invMixColumns (s : Block) : mixColumns (invMixColumns s) = s := by
  rw [mixColumns_eq_circulant, invMixColumns_eq_circulant, circulant_circulant]
  exact circulant_one s

/-- Settles O41: cell by cell, with MixColumns and its inverse as circulants whose composition is the identity. -/
theorem roundTransformsAreMutualInverses : Obligations.RoundTransformsAreMutualInverses := fun s k =>
  ⟨invSubBytes_subBytes s, subBytes_invSubBytes s, invShiftRows_shiftRows s, shiftRows_invShiftRows s,
    invMixColumns_mixColumns s, mixColumns_invMixColumns s, addRoundKey_addRoundKey s k, subBytes_shiftRows s,
    invSubBytes_invShiftRows s⟩

/-! ## The key schedule (40_aes_datapath R125 to R127) -/

theorem keyWords_length (key : List Byte) (nk : Nat) : (keyWords key nk).length = nk := by
  simp [keyWords]

/-- Byte j of key word c is byte `4c + j` of the key. -/
theorem byteOf_keyWords (key : List Byte) {nk c j : Nat} (hc : c < nk) (hj : j < 4) :
    byteOf ((keyWords key nk).getD c 0) j = key.getD (4 * c + j) 0 := by
  have hword : (keyWords key nk).getD c 0 =
      be32 (key.getD (4 * c) 0) (key.getD (4 * c + 1) 0) (key.getD (4 * c + 2) 0) (key.getD (4 * c + 3) 0) := by
    simp [keyWords, List.getElem?_range hc]
  rw [hword]
  exact byteOf_be32 (fun j => key.getD (4 * c + j) 0) hj

/-- Passes of the schedule append one word each. -/
theorem foldl_scheduleStep_length (nk : Nat) (is : List Nat) (w : List Word) :
    (is.foldl (scheduleStep nk) w).length = w.length + is.length := by
  induction is generalizing w with
  | nil => rfl
  | cons i is ih => rw [List.foldl_cons, ih, scheduleStep_length, List.length_cons, Nat.add_right_comm, Nat.add_assoc]

/-- Passes of the schedule leave the words before them. -/
theorem foldl_scheduleStep_getD (nk : Nat) (is : List Nat) (w : List Word) {j : Nat} (hj : j < w.length) :
    (is.foldl (scheduleStep nk) w).getD j 0 = w.getD j 0 := by
  induction is generalizing w with
  | nil => rfl
  | cons i is ih =>
    have hlen : j < (scheduleStep nk w i).length := by rw [scheduleStep_length]; omega
    rw [List.foldl_cons, ih _ hlen, scheduleStep_getD nk w i j hj]

theorem keyExpansion_length (key : List Byte) {nk nr : Nat} (h : nk ≤ 4 * (nr + 1)) :
    (keyExpansion key nk nr).length = 4 * (nr + 1) := by
  rw [keyExpansion, foldl_scheduleStep_length, keyWords_length, List.length_range', Nat.add_sub_cancel' h]

/-- The first Nk words of a schedule are the key's. -/
theorem keyExpansion_getD (key : List Byte) {nk nr c : Nat} (hc : c < nk) :
    (keyExpansion key nk nr).getD c 0 = (keyWords key nk).getD c 0 :=
  foldl_scheduleStep_getD nk _ _ (by rwa [keyWords_length])

/-- Byte i of round key 0 is byte i of the key. -/
theorem roundKey_keyExpansion_zero_getElem (key : List Byte) {nk nr i : Nat} (hnk : 4 ≤ nk) (hi : i < 16) :
    (roundKey (keyExpansion key nk nr) 0)[i] = key.getD i 0 := by
  have hc : i / 4 < nk := by omega
  have hj : i % 4 < 4 := by omega
  simp only [roundKey, blockOfCells, Vector.getElem_ofFn, Nat.mul_zero, Nat.zero_add]
  rw [keyExpansion_getD key hc, byteOf_keyWords key hc hj, Nat.div_add_mod]

theorem roundKey_keyExpansion_zero (key : List Byte) {nk nr : Nat} (hnk : 4 ≤ nk) (hlen : key.length = 4 * nk) :
    (roundKey (keyExpansion key nk nr) 0).toList = key.take 16 := by
  apply List.ext_getElem
  · rw [Vector.length_toList, List.length_take, hlen]
    omega
  · intro i hi _
    have hi16 : i < 16 := by simpa using hi
    have hik : i < key.length := by omega
    rw [Vector.getElem_toList, roundKey_keyExpansion_zero_getElem key hnk hi16, List.getElem_take,
      List.getD_eq_getElem _ _ hik]

theorem KeySize.four_le_nk (k : KeySize) : 4 ≤ k.nk := by
  cases k <;> decide

theorem KeySize.nk_le_scheduleLength (k : KeySize) : k.nk ≤ 4 * (k.nr + 1) := by
  cases k <;> decide

/-- Settles O43: every pass appends one word after the key's own, and round key 0 is the first four of those. -/
theorem roundKeyZeroIsTheKeysFirstBytes : Obligations.RoundKeyZeroIsTheKeysFirstBytes := fun k key hlen =>
  ⟨keyExpansion_length key k.nk_le_scheduleLength, roundKey_keyExpansion_zero key k.four_le_nk hlen⟩

end Sys2Proof.Machine
end

section
/-! SUPPORT. Proofs of the statements about the AES commands (41_aes_commands): decryption as encryption run backwards, the
recurrence of the installed words, the completions, and the commands run through the registers. -/

namespace Sys2Proof.Machine

open Sys2Proof.Safety

/-! ## Decryption undoes encryption (41_aes_commands R140, R141) -/

/-- The last round without MixColumns, undone (40_aes_datapath R129). -/
theorem invSubBytes_invShiftRows_shiftRows_subBytes (s : Block) :
    invSubBytes (invShiftRows (shiftRows (subBytes s))) = s := by
  rw [invShiftRows_shiftRows, invSubBytes_subBytes]

theorem decryptRound_encryptRound (w : List Word) (s : Block) (round : Nat) :
    decryptRound w (encryptRound w s round) round = s := by
  rw [decryptRound, encryptRound, addRoundKey_addRoundKey, invMixColumns_mixColumns,
    invSubBytes_invShiftRows_shiftRows_subBytes]

/-- Rounds undone in the reverse of their order leave the block they started from. -/
theorem foldl_reverse_decryptRound_foldl_encryptRound (w : List Word) (rounds : List Nat) (s : Block) :
    rounds.reverse.foldl (decryptRound w) (rounds.foldl (encryptRound w) s) = s := by
  induction rounds generalizing s with
  | nil => rfl
  | cons round rounds ih =>
    rw [List.reverse_cons, List.foldl_append, List.foldl_cons (f := encryptRound w), ih]
    exact decryptRound_encryptRound w s round

/-- Decryption undoes encryption, whatever the number of rounds. -/
theorem aesDecrypt_aesEncrypt (p : Block) (w : List Word) (nr : Nat) : aesDecrypt (aesEncrypt p w nr) w nr = p := by
  simp only [aesDecrypt, aesEncrypt]
  rw [addRoundKey_addRoundKey, invSubBytes_invShiftRows_shiftRows_subBytes,
    foldl_reverse_decryptRound_foldl_encryptRound, addRoundKey_addRoundKey]

/-- Settles O42: each transform of R141 undoes the last one of R140 that is left. -/
theorem decryptUndoesEncrypt : Obligations.DecryptUndoesEncrypt := fun p w nr _ => aesDecrypt_aesEncrypt p w nr

/-! ## The key schedule in the installed words (40_aes_datapath R125, 41_aes_commands R142) -/

/-- The word that one pass appends. -/
theorem scheduleStep_getD_length (nk : Nat) (w : List Word) (i : Nat) :
    (scheduleStep nk w i).getD w.length 0 = w.getD (i - nk) 0 ^^^ scheduleTerm nk i (w.getD (i - 1) 0) := by
  simp [scheduleStep]

/-- Passes from index `w.length` on: each word they append is R125's, read in the list that they leave. -/
theorem foldl_scheduleStep_recurrence {nk : Nat} (hnk : 0 < nk) (n : Nat) (w : List Word) (hw : nk ≤ w.length) {i : Nat}
    (hlo : w.length ≤ i) (hhi : i < w.length + n) :
    let v := (List.range' w.length n).foldl (scheduleStep nk) w
    v.getD i 0 = v.getD (i - nk) 0 ^^^ scheduleTerm nk i (v.getD (i - 1) 0) := by
  induction n generalizing w with
  | zero => omega
  | succ n ih =>
    have hlen : (scheduleStep nk w w.length).length = w.length + 1 := scheduleStep_length nk w w.length
    have hkeep {j : Nat} (hj : j < w.length) :
        ((List.range' w.length (n + 1)).foldl (scheduleStep nk) w).getD j 0 = w.getD j 0 :=
      foldl_scheduleStep_getD nk _ w hj
    rcases Nat.eq_or_lt_of_le hlo with rfl | hlt
    · simp only [hkeep (show w.length - nk < w.length by omega), hkeep (show w.length - 1 < w.length by omega)]
      rw [List.range'_succ, List.foldl_cons, foldl_scheduleStep_getD nk _ _ (by omega), scheduleStep_getD_length]
    · have hrest := ih (scheduleStep nk w w.length) (by omega) (by omega) (by omega)
      rwa [hlen] at hrest

/-- The words of a schedule past the key's own (R125's second loop). -/
theorem keyExpansion_recurrence (key : List Byte) {nk nr i : Nat} (hnk : 0 < nk) (hlo : nk ≤ i)
    (hhi : i < 4 * (nr + 1)) :
    let w := keyExpansion key nk nr
    w.getD i 0 = w.getD (i - nk) 0 ^^^ scheduleTerm nk i (w.getD (i - 1) 0) := by
  have hlen := keyWords_length key nk
  have h := foldl_scheduleStep_recurrence hnk (4 * (nr + 1) - nk) (keyWords key nk) (i := i)
    (by omega) (by omega) (by omega)
  rwa [hlen] at h

/-- Inside its length a register group reads the same with a default. -/
theorem toList_getD_eq_getElem {α : Type} {n i : Nat} (v : Vector α n) (d : α) (h : i < n) :
    v.toList.getD i d = v[i] := by
  rw [List.getD_eq_getElem _ _ (by simpa using h), Vector.getElem_toList]

/-- Key word c is KEYc (30_encoding R98). -/
theorem keyWords_keyBytes_getD (k : KeySize) (keys : Vector Word 8) {c : Nat} (hc : c < k.nk) :
    (keyWords (keyBytes k keys) k.nk).getD c 0 = keys.toList.getD c 0 := by
  have hk : k.nk ≤ 8 := by cases k <;> decide
  have hbyte {j : Nat} (hj : j < 4) :
      byteOf ((keyWords (keyBytes k keys) k.nk).getD c 0) j = byteOf (keys.toList.getD c 0) j := by
    have htake : 4 * c + j < 4 * k.nk := by omega
    have hq : (4 * c + j) / 4 = c := by omega
    have hr : (4 * c + j) % 4 = j := by omega
    rw [byteOf_keyWords _ hc hj, keyBytes, List.getD_eq_getElem?_getD, List.getElem?_take_of_lt htake,
      ← List.getD_eq_getElem?_getD, bytesOf_getD keys _ (by omega), hq, hr]
  rw [← be32_byteOf ((keyWords (keyBytes k keys) k.nk).getD c 0)]
  simp (disch := decide) only [hbyte, be32_byteOf]

/-- An installed word, by its index (R142). -/
theorem installKey_rk_getElem (k : KeySize) (keys : Vector Word 8) {i : Nat} (hi : i < 60) :
    (installKey k keys).rk[i] =
      if i < 4 * (k.nr + 1) then (keyExpansion (keyBytes k keys) k.nk k.nr).getD i 0 else 0 := by
  simp only [installKey, Vector.getElem_ofFn]

/-- Read with zeros past the end, the installed words are the key's schedule. -/
theorem installKey_rk_getD (k : KeySize) (keys : Vector Word 8) (j : Nat) :
    (installKey k keys).rk.toList.getD j 0 = (keyExpansion (keyBytes k keys) k.nk k.nr).getD j 0 := by
  have hlen := keyExpansion_length (keyBytes k keys) k.nk_le_scheduleLength
  have hfits : 4 * (k.nr + 1) ≤ 60 := by cases k <;> decide
  by_cases hj : j < 4 * (k.nr + 1)
  · rw [toList_getD_eq_getElem _ _ (by omega), installKey_rk_getElem, if_pos hj]
  · rw [List.getD_eq_default _ _ (hlen.le.trans (not_lt.mp hj))]
    by_cases h60 : j < 60
    · rw [toList_getD_eq_getElem _ _ h60, installKey_rk_getElem, if_neg hj]
    · rw [List.getD_eq_default _ _ (by simpa using h60)]

/-- The installed words, word by word: the key's own, then the recurrence, then zeros (R125, R142). -/
theorem installKey_rk_recurrence (k : KeySize) (keys : Vector Word 8) {i : Nat} (hi : i < 60) :
    let rk := (installKey k keys).rk
    rk[i] =
      if i < k.nk then keys.toList.getD i 0
      else if i < 4 * (k.nr + 1) then
        rk.toList.getD (i - k.nk) 0 ^^^ scheduleTerm k.nk i (rk.toList.getD (i - 1) 0)
      else 0 := by
  have hnk := k.four_le_nk
  have hlen := k.nk_le_scheduleLength
  simp only [installKey_rk_getElem k keys hi, installKey_rk_getD]
  split_ifs with hend hkey hkey
  · rw [keyExpansion_getD _ hkey, keyWords_keyBytes_getD k keys hkey]
  · exact keyExpansion_recurrence (keyBytes k keys) (by omega) (not_lt.mp hkey) hend
  · omega
  · rfl

/-- The three variants (00_scope R2). -/
theorem KeySize.variants (k : KeySize) : (k.code, k.nk, k.nr) ∈ [(0, 4, 10), (1, 6, 12), (2, 8, 14)] := by
  cases k <;> decide

/-- An installed key is its words with the numbers of its variant (R142). -/
theorem installKey_eq_mk (k : KeySize) (keys : Vector Word 8) :
    installKey k keys =
      { rk := (installKey k keys).rk, nk := k.nk, nr := k.nr, keyvalid := true, ksz := k } := by
  simp only [installKey]

/-- The completion of AES.KEYEXP (R142). -/
theorem exec_aesKeyexp_engine {s : State} {k : KeySize} {keys : Vector Word 8} (ht : s.turn = .engine)
    (hc : s.inflight = some (.keyexp k keys)) :
    exec (.aesKeyexp k.code) s = .next { s with cipher := installKey k keys, inflight := none, done := true } := by
  simpa only [Inflight.instr, completed, retire] using exec_engine (.keyexp k keys) s ht hc

/-- Settles O13: the completion installs the key, whose words follow the recurrence of the schedule. -/
theorem keyexpInstallsTheKeySchedule : Obligations.KeyexpInstallsTheKeySchedule := by
  refine ⟨KeySize.variants, fun s k keys ht hc => ⟨(installKey k keys).rk, ?_, fun i => ?_⟩⟩
  · rw [exec_aesKeyexp_engine ht hc, ← installKey_eq_mk]
  · exact installKey_rk_recurrence k keys i.isLt

/-- Settles O31: of the things a step can be, a completion of AES.KEYEXP and a reset write the installed key. -/
theorem keyScheduleChangesOnlyAtKeyexpOrReset : Obligations.KeyScheduleChangesOnlyAtKeyexpOrReset := by
  intro s t hst hne
  cases stepTo_of_step hst with
  | @resets b rest he =>
    rcases setResetPin_cases b { s with events := rest } with e | e <;> rw [e] at hne ⊢
    · exact .inl ⟨resetMoves_of_events he, rfl⟩
    · exact absurd rfl hne
  | @completes c hm hc hr =>
    rw [retire_cipher, completed_cipher] at hne ⊢
    cases c with
    | keyexp k keys => exact .inr ⟨hm, rfl, k, keys, hc, rfl⟩
    | _ => exact absurd rfl hne
  | writes hr he => exact absurd (by simp) hne
  | _ => exact absurd rfl hne

/-! ## The output block (41_aes_commands R143, R144, 30_encoding R99) -/

/-- The block of a snapshot, byte by byte. -/
theorem blockOfWords_eq_ofFn_getD (d : Vector Word 4) :
    blockOfWords d = Vector.ofFn fun i => byteOf (d.toList.getD (i.val / 4) 0) (i.val % 4) := by
  apply Vector.ext
  intro i hi
  have hword : i / 4 < 4 := by omega
  simp only [blockOfWords, Vector.getElem_ofFn, toList_getD_eq_getElem d 0 hword]

/-- The words of a block, byte by byte. -/
theorem wordsOfBlock_eq_ofFn_getD (b : Block) :
    wordsOfBlock b = Vector.ofFn fun k => be32 (b.toList.getD (4 * k.val) 0) (b.toList.getD (4 * k.val + 1) 0)
      (b.toList.getD (4 * k.val + 2) 0) (b.toList.getD (4 * k.val + 3) 0) := by
  apply Vector.ext
  intro k hk
  simp (disch := omega) only [wordsOfBlock, Vector.getElem_ofFn, toList_getD_eq_getElem]

/-- Settles O14: each completion writes its block, read from the snapshot and packed byte by byte. -/
theorem encAndDecWriteTheOutputBlock : Obligations.EncAndDecWriteTheOutputBlock := by
  intro s d ht
  simp only [← blockOfWords_eq_ofFn_getD, ← wordsOfBlock_eq_ofFn_getD]
  exact ⟨fun hc => exec_engine (.enc d) s ht hc, fun hc => exec_engine (.dec d) s ht hc⟩

/-! ## The commands through the registers (41_aes_commands R146) -/

/-- An issued command whose checks let it through, and its completion (70_reset_and_hazards R237, R238). -/
theorem run_cmd_complete {s : State} {i : Instr} {c : Inflight} {rest : List Event} (n : Nat) (hi : i.wellFormed = true)
    (hok : checks i { s with events := .complete :: rest, response := .writeDone, turn := .host } = .ok c)
    (hr : s.resetHeld = false) (hidle : s.inflight = none) (he : s.events = cmdWrite (encode i) :: .complete :: rest) :
    core.run (n + 2) s = core.run n
      (retire (completed c { s with events := rest, response := .writeDone, turn := .engine })) := by
  have hissue : step s = .next
      (accept c { s with events := .complete :: rest, response := .writeDone, turn := .host }) := by
    rw [stepRunsTheDecodedCommand s _ i _ hr he (decodeOfEncodeIsTheCommand i hi), exec_host_eq _ _ rfl, hok]
    simp [issue, State.busy, hidle]
  refine Eq.trans (run_succ (n + 1) hissue) <|
    Eq.trans (run_succ n (Eq.trans (step_complete rfl) (engineStep_inflight hr rfl))) ?_
  cases c <;> rfl

/-- A write to an AES input register. -/
theorem run_wrEvent_aesDin {s : State} (n : Nat) (k : Fin 4) {v : Word} {rest : List Event} (hr : s.resetHeld = false)
    (he : s.events = wrEvent (.aesDin k) v :: rest) :
    core.run (n + 1) s = core.run n { s with aesDin := s.aesDin.set k v, events := rest, response := .writeDone } :=
  run_succ n (step_wrEvent hr (by simp) he)

/-- The four words of a block written to AES_DIN0..3 (30_encoding R102). -/
theorem run_ldblk {s : State} {p0 p1 p2 p3 : Word} {rest : List Event} (n : Nat) (hr : s.resetHeld = false)
    (he : s.events = (HostLine.ldblk p0 p1 p2 p3).expand ++ rest) :
    core.run (n + 4) s = core.run n
      { s with aesDin := #v[p0, p1, p2, p3], events := rest, response := .writeDone } := by
  have hdin : (((s.aesDin.set 0 p0).set 1 p1).set 2 p2).set 3 p3 = #v[p0, p1, p2, p3] := by
    apply Vector.ext
    intro i hi
    interval_cases i <;> simp
  rw [← hdin]
  exact Eq.trans (run_wrEvent_aesDin (n + 3) 0 hr he) <|
    Eq.trans (run_wrEvent_aesDin (n + 2) 1 hr rfl) <|
    Eq.trans (run_wrEvent_aesDin (n + 1) 2 hr rfl) <| run_wrEvent_aesDin n 3 hr rfl

/-- Decrypting the encrypted words of a block under the same installed key gives them back (R146). -/
theorem decryptWords_encryptWords (c : CipherState) (d : Vector Word 4) : decryptWords c (encryptWords c d) = d := by
  rw [decryptWords, encryptWords, blockOfWords_wordsOfBlock, aesDecrypt_aesEncrypt, wordsOfBlock_blockOfWords]

/-- The KSZ code of a variant passes AES.KEYEXP's check (60_exceptions R206). -/
theorem checks_aesKeyexp_code (k : KeySize) (s : State) : checks (.aesKeyexp k.code) s = .ok (.keyexp k s.key) := by
  cases k <;> rfl

theorem checks_aesEnc {s : State} (h : s.cipher.keyvalid = true) : checks .aesEnc s = .ok (.enc s.aesDin) := if_pos h

theorem checks_aesDec {s : State} (h : s.cipher.keyvalid = true) : checks .aesDec s = .ok (.dec s.aesDin) := if_pos h

/-- What a completed AES command leaves: an idle CORE with reset released, and the context and the error record as they
were (10_state R46, 70_reset_and_hazards R238). -/
structure IdleAfterAes (s t : State) : Prop where
  resetHeld : t.resetHeld = false
  inflight : t.inflight = none
  sha : t.sha = s.sha
  err : t.err = s.err
  errcode : t.errcode = s.errcode

theorem IdleAfterAes.trans {s t u : State} (h : IdleAfterAes s t) (h' : IdleAfterAes t u) : IdleAfterAes s u :=
  ⟨h'.resetHeld, h'.inflight, h'.sha.trans h.sha, h'.err.trans h.err, h'.errcode.trans h.errcode⟩

/-- The completion of an AES command, whatever the block loaded before it and the model's own fields. -/
theorem idleAfterAes_completed {c : Inflight} {s : State} (d : Vector Word 4) (events : List Event)
    (response : BusResponse) (turn : Agent) (hc : c.writesSha = false) (hr : s.resetHeld = false) :
    IdleAfterAes s
      (retire (completed c { s with aesDin := d, events := events, response := response, turn := turn })) where
  resetHeld := by simpa using hr
  inflight := rfl
  sha := completed_sha_of_aes hc _
  err := by simp
  errcode := by simp

/-- AES.KEYEXP through CMD installs the key of KEY0..7 (R142). -/
theorem run_keyexp {s : State} {k : KeySize} {rest : List Event} (n : Nat) (hr : s.resetHeld = false)
    (hidle : s.inflight = none) (he : s.events = (HostLine.cmd (.aesKeyexp k.code)).expand ++ .complete :: rest) :
    ∃ t : State, core.run (n + 2) s = core.run n t ∧ t.events = rest ∧ t.cipher = installKey k s.key ∧
      IdleAfterAes s t := by
  have hi : (Instr.aesKeyexp k.code).wellFormed = true := by cases k <;> rfl
  exact ⟨_, run_cmd_complete n hi (checks_aesKeyexp_code k _) hr hidle he, by simp,
    by rw [retire_cipher, completed_cipher], idleAfterAes_completed s.aesDin rest _ _ rfl hr⟩

/-- The host's transactions for one block: its words to AES_DIN0..3, then an AES command on it, completed. -/
def blockEvents (i : Instr) (p0 p1 p2 p3 : Word) : List Event :=
  (HostLine.ldblk p0 p1 p2 p3).expand ++ (HostLine.cmd i).expand ++ [.complete]

/-- A block loaded and an AES command on it, completed, at the end of the sequence of events. -/
theorem run_ldblk_cmd {s : State} {i : Instr} {c : Inflight} {p0 p1 p2 p3 : Word} (hi : i.wellFormed = true)
    (hc : c.writesSha = false)
    (hok : ∀ t : State, t.cipher = s.cipher → t.aesDin = #v[p0, p1, p2, p3] → checks i t = .ok c)
    (hr : s.resetHeld = false) (hidle : s.inflight = none) (he : s.events = blockEvents i p0 p1 p2 p3) :
    ∃ t : State, core.run 6 s = .next t ∧ t.aesDout = (completed c s).aesDout ∧ t.cipher = (completed c s).cipher ∧
      IdleAfterAes s t := by
  refine ⟨_, Eq.trans (run_ldblk 2 hr he) (run_cmd_complete 0 hi (hok _ rfl rfl) hr hidle rfl), ?_, ?_,
    idleAfterAes_completed _ _ _ _ hc hr⟩
  · rw [retire_aesDout, completed_aesDout, completed_aesDout]
  · rw [retire_cipher, completed_cipher, completed_cipher]

/-- Four words read one by one and packed again. -/
theorem vector_four_eta (d : Vector Word 4) : #v[d[0], d[1], d[2], d[3]] = d := by
  apply Vector.ext
  intro i hi
  interval_cases i <;> rfl

/-- Settles O44: AES.ENC and AES.DEC run under the key that AES.KEYEXP installed, the second on the words of the first. -/
theorem decOfEncThroughTheRegisters : Obligations.DecOfEncThroughTheRegisters := by
  intro s k p0 p1 p2 p3 hr hidle
  obtain ⟨a, hrunA, heventsA, hcipherA, hA⟩ := run_keyexp (k := k) (rest := blockEvents .aesEnc p0 p1 p2 p3)
    (s := { s with events := (HostLine.cmd (.aesKeyexp k.code)).expand ++ .complete :: blockEvents .aesEnc p0 p1 p2 p3 })
    6 hr hidle rfl
  have hkeyA : a.cipher.keyvalid = true := by rw [hcipherA, installKey_keyvalid]
  obtain ⟨t, hrunT, hdoutT, hcipherT, hT⟩ := run_ldblk_cmd (c := .enc #v[p0, p1, p2, p3]) rfl rfl
    (fun v hv hd => hd ▸ checks_aesEnc (hv ▸ hkeyA)) hA.resetHeld hA.inflight heventsA
  have hkeyT : t.cipher.keyvalid = true := hcipherT ▸ hkeyA
  obtain ⟨u, hrunU, hdoutU, hcipherU, hU⟩ := run_ldblk_cmd (c := .dec t.aesDout)
    (s := { t with events := blockEvents .aesDec t.aesDout[0] t.aesDout[1] t.aesDout[2] t.aesDout[3] }) rfl rfl
    (fun v hv hd => (hd.trans (vector_four_eta t.aesDout)) ▸ checks_aesDec (hv ▸ hkeyT)) hT.resetHeld hT.inflight rfl
  simp only [completed] at hdoutT hcipherT hdoutU hcipherU
  refine ⟨t, u, hrunA.trans hrunT, hrunU, ?_, ?_, ?_, ?_, ?_⟩
  · rw [hdoutU, hcipherT, hdoutT, decryptWords_encryptWords]
  · rw [hcipherU, hcipherT, hcipherA]
  · exact hU.sha.trans (hA.trans hT).sha
  · exact hU.err.trans (hA.trans hT).err
  · exact hU.errcode.trans (hA.trans hT).errcode

end Sys2Proof.Machine
end

section
/-! SUPPORT. Proofs of the statements about the SHA commands (43_sha_commands): every byte that enters the buffer is one
`padBytes` of a list, so that SHA.UPDATE and SHA.FINAL are each one list of bytes laid over the buffer; then the digest
of a whole message, and the commands run through the registers. -/

namespace Sys2Proof.Machine

open Sys2Proof.Safety

/-! ## Bytes laid over the buffer -/

/-- A buffer with the bytes of `m` from index `i` on. -/
def overlay (b : Vector Byte 64) (i : Nat) (m : List Byte) : Vector Byte 64 :=
  Vector.ofFn fun j => if i ≤ j.val ∧ j.val < i + m.length then m.getD (j.val - i) 0 else b[j]

theorem overlay_getElem (b : Vector Byte 64) (i : Nat) (m : List Byte) {j : Nat} (hj : j < 64) :
    (overlay b i m)[j] = if i ≤ j ∧ j < i + m.length then m.getD (j - i) 0 else b[j] := by
  simp [overlay]

@[simp] theorem overlay_nil (b : Vector Byte 64) (i : Nat) : overlay b i [] = b := by
  ext j hj
  rw [overlay_getElem _ _ _ hj, if_neg (by simp)]

/-- The first byte is written at its index, the others from the next one on. -/
theorem overlay_cons (b : Vector Byte 64) (i : Nat) (x : Byte) (m : List Byte) :
    overlay b i (x :: m) = overlay (b.setIfInBounds i x) (i + 1) m := by
  apply Vector.ext
  intro j hj
  rw [overlay_getElem _ _ _ hj, overlay_getElem _ _ _ hj, Vector.getElem_setIfInBounds hj, List.length_cons]
  rcases lt_trichotomy j i with hlt | rfl | hgt
  · rw [if_neg (by omega), if_neg (by omega), if_neg (by omega)]
  · rw [if_pos (by omega), if_neg (by omega), if_pos rfl, Nat.sub_self, List.getD_cons_zero]
  · obtain ⟨k, rfl⟩ : ∃ k, j = i + 1 + k := ⟨j - (i + 1), by omega⟩
    have hk : i + 1 + k - i = k + 1 := by omega
    have hin : (i ≤ i + 1 + k ∧ i + 1 + k < i + (m.length + 1)) ↔
        (i + 1 ≤ i + 1 + k ∧ i + 1 + k < i + 1 + m.length) := by omega
    simp only [hin, hk, List.getD_cons_succ, Nat.add_sub_cancel_left, if_neg (show ¬i = i + 1 + k by omega)]

/-- Bytes that reach the end of the buffer, the first of them apart. -/
theorem overlay_cons_getElem (b : Vector Byte 64) (i : Nat) (x : Byte) (m : List Byte) {j : Nat} (hj : j < 64)
    (h : 64 ≤ i + 1 + m.length) :
    (overlay b i (x :: m))[j] = if j < i then b[j] else if j = i then x else m.getD (j - (i + 1)) 0 := by
  rw [overlay_cons, overlay_getElem _ _ _ hj, Vector.getElem_setIfInBounds hj]
  rcases lt_trichotomy j i with hlt | rfl | hgt
  · rw [if_neg (by omega), if_neg (by omega), if_pos hlt]
  · rw [if_neg (by omega), if_pos rfl, if_neg (by omega), if_pos rfl]
  · rw [if_pos (by omega), if_neg (by omega), if_neg (by omega)]

/-! ## The bytes that enter the buffer (43_sha_commands R180) -/

/-- `AppendByte` of each byte of a list in order, the bit length left alone (R180). -/
def padBytes (m : List Byte) (c : ShaContext) : ShaContext := m.foldl (fun c x => padByte x c) c

@[simp] theorem padBytes_nil (c : ShaContext) : padBytes [] c = c := rfl

@[simp] theorem padBytes_cons (x : Byte) (m : List Byte) (c : ShaContext) :
    padBytes (x :: m) c = padBytes m (padByte x c) := rfl

@[simp] theorem padBytes_append (a b : List Byte) (c : ShaContext) : padBytes (a ++ b) c = padBytes b (padBytes a c) :=
  List.foldl_append

theorem padByte_of_lt (x : Byte) (c : ShaContext) (h : c.fill + 1 < 64) :
    padByte x c = { c with buf := c.buf.setIfInBounds c.fill x, fill := c.fill + 1 } := by
  rw [padByte, appendByte_of_lt x c h]

theorem padByte_of_eq (x : Byte) (c : ShaContext) (h : c.fill + 1 = 64) :
    padByte x c =
      { c with
        buf := c.buf.setIfInBounds c.fill x, fill := 0, h := compress c.h (c.buf.setIfInBounds c.fill x) } := by
  rw [padByte, appendByte_of_eq x c h]

/-- `AppendByte` neither reads nor writes the bit length. -/
theorem padByte_withBitlen (x : Byte) (c : ShaContext) (bits : BitVec 64) :
    padByte x { c with bitlen := bits } = { padByte x c with bitlen := bits } := by
  unfold padByte appendByte
  by_cases h : c.fill + 1 = 64
  · simp only [h, if_true]
  · simp only [h, if_false]

theorem padBytes_withBitlen (m : List Byte) (c : ShaContext) (bits : BitVec 64) :
    padBytes m { c with bitlen := bits } = { padBytes m c with bitlen := bits } := by
  induction m generalizing c with
  | nil => rfl
  | cons x m ih => rw [padBytes_cons, padByte_withBitlen, ih, padBytes_cons]

/-- Bytes that leave room in the buffer only land in it. -/
theorem padBytes_of_lt (m : List Byte) (c : ShaContext) (h : c.fill + m.length < 64) :
    padBytes m c = { c with buf := overlay c.buf c.fill m, fill := c.fill + m.length } := by
  induction m generalizing c with
  | nil => rw [overlay_nil]; rfl
  | cons x m ih =>
    rw [List.length_cons] at h
    have hx := padByte_of_lt x c (by omega)
    rw [padBytes_cons, ih _ (by rw [hx]; simp only; omega), hx]
    simp only [overlay_cons, List.length_cons, Nat.add_assoc, Nat.add_comm 1]

/-- Bytes that fill the buffer exactly: one compression of the full buffer, which is then empty. -/
theorem padBytes_of_eq (m : List Byte) (c : ShaContext) (hf : c.fill < 64) (h : c.fill + m.length = 64) :
    padBytes m c =
      { c with buf := overlay c.buf c.fill m, fill := 0, h := compress c.h (overlay c.buf c.fill m) } := by
  induction m generalizing c with
  | nil => rw [List.length_nil] at h; omega
  | cons x m ih =>
    rw [List.length_cons] at h
    rw [padBytes_cons, overlay_cons]
    by_cases hx : c.fill + 1 = 64
    · obtain rfl : m = [] := List.length_eq_zero_iff.mp (by omega)
      rw [padByte_of_eq x c hx, padBytes_nil, overlay_nil]
    · have hlt := padByte_of_lt x c (by omega)
      rw [ih _ (by rw [hlt]; simp only; omega) (by rw [hlt]; simp only; omega), hlt]

/-- The fill counts the bytes modulo 64. -/
theorem padBytes_fill (m : List Byte) (c : ShaContext) (h : c.fill < 64) :
    (padBytes m c).fill = (c.fill + m.length) % 64 := by
  induction m generalizing c with
  | nil => simp [Nat.mod_eq_of_lt h]
  | cons x m ih =>
    have hx := padByte_fill x c
    rw [padBytes_cons, ih _ (by rw [hx]; split <;> omega), hx, List.length_cons]
    split <;> omega

/-! ## SHA.UPDATE (43_sha_commands R182) -/

/-- A message byte is one `AppendByte`, with 512 more bits if it fills the buffer (R182). -/
theorem updateByte_eq (c : ShaContext) (x : Byte) :
    updateByte c x = { padByte x c with bitlen := if c.fill + 1 = 64 then c.bitlen + 512 else c.bitlen } := by
  unfold updateByte padByte appendByte
  by_cases h : c.fill + 1 = 64
  · simp only [h, if_true]
  · simp only [h, if_false, Bool.false_eq_true]

/-- Message bytes leave the context state. -/
theorem updateContext_state (m : List Byte) (c : ShaContext) : (updateContext m c).state = c.state := by
  induction m generalizing c with
  | nil => rfl
  | cons x m ih =>
    have hx : (updateByte c x).state = c.state := by rw [updateByte_eq]; exact (padByte_frame x c).2
    exact (ih (updateByte c x)).trans hx

/-- Blocks counted from one message byte on: its own, if it fills one, and those of the bytes after it. -/
theorem bitlen_step (b : BitVec 64) {f : Nat} (n : Nat) :
    (if f + 1 = 64 then b + 512 else b) +
        BitVec.ofNat 64 (512 * (((if f + 1 = 64 then 0 else f + 1) + n) / 64)) =
      b + BitVec.ofNat 64 (512 * ((f + (n + 1)) / 64)) := by
  by_cases hf : f + 1 = 64
  · have hq : 512 * ((f + (n + 1)) / 64) = 512 + 512 * ((0 + n) / 64) := by omega
    rw [if_pos hf, if_pos hf, hq, BitVec.ofNat_add, BitVec.add_assoc]
    rfl
  · have hq : f + (n + 1) = f + 1 + n := by omega
    rw [if_neg hf, if_neg hf, hq]

/-- SHA.UPDATE on the context: `AppendByte` of each byte, and 512 more bits for each block they fill (R182). -/
theorem updateContext_eq (m : List Byte) (c : ShaContext) (h : c.fill < 64) :
    updateContext m c =
      { padBytes m c with bitlen := c.bitlen + BitVec.ofNat 64 (512 * ((c.fill + m.length) / 64)) } := by
  induction m generalizing c with
  | nil =>
    have hq : (c.fill + ([] : List Byte).length) / 64 = 0 := by simp; omega
    rw [hq]
    simp [updateContext]
  | cons x m ih =>
    have hbits := bitlen_step c.bitlen (f := c.fill) m.length
    rw [← padByte_fill x c, ← List.length_cons (a := x)] at hbits
    calc updateContext (x :: m) c = updateContext m (updateByte c x) := rfl
      _ = _ := ih _ (updateByte_bounds c x h).1
      _ = _ := by rw [updateByte_eq, padBytes_withBitlen, hbits, padBytes_cons]

/-! ## SHA.FINAL (43_sha_commands R183) -/

/-- The length in bits as 8 big-endian bytes (R183). -/
def lengthBytes (bits : BitVec 64) : List Byte := (List.range 8).map fun j => bits.extractLsb' (56 - 8 * j) 8

@[simp] theorem lengthBytes_length (bits : BitVec 64) : (lengthBytes bits).length = 8 := by simp [lengthBytes]

theorem lengthBytes_getD (bits : BitVec 64) {j : Nat} (hj : j < 8) :
    (lengthBytes bits).getD j 0 = bits.extractLsb' (56 - 8 * j) 8 := by
  simp [lengthBytes, hj]

/-- The length field is the length's bytes from index 56 on. -/
theorem writeLength_eq_overlay (bits : BitVec 64) (b : Vector Byte 64) :
    writeLength bits b = overlay b 56 (lengthBytes bits) := by
  simp [writeLength, lengthBytes, List.range_succ, overlay_cons]

/-- The zero fill is a list of zeros (R183). -/
theorem zeroFill_eq_padBytes (fuel : Nat) (c : ShaContext) (h : c.fill < 64) (hf : (120 - c.fill) % 64 ≤ fuel) :
    zeroFill fuel c = padBytes (List.replicate ((120 - c.fill) % 64) 0x00) c := by
  induction fuel generalizing c with
  | zero => rw [Nat.le_zero.mp hf]; rfl
  | succ fuel ih =>
    rw [zeroFill]
    split
    · next h56 => rw [h56]; rfl
    · next hne =>
      have hp : (padByte 0x00 c).fill = (c.fill + 1) % 64 := by rw [padByte_fill]; split <;> omega
      have hn : (120 - c.fill) % 64 = (120 - (padByte 0x00 c).fill) % 64 + 1 := by omega
      rw [ih _ (by omega) (by omega), hn, List.replicate_succ, padBytes_cons]

/-- The bytes SHA.FINAL appends to a buffer of this fill: 0x80, zeros up to 56 modulo 64, and the length (R183). -/
def padding (fill : Nat) (bits : BitVec 64) : List Byte :=
  0x80 :: (List.replicate ((119 - fill) % 64) 0x00 ++ lengthBytes bits)

theorem padding_length (fill : Nat) (bits : BitVec 64) : (padding fill bits).length = (119 - fill) % 64 + 9 := by
  rw [padding, List.length_cons, List.length_append, List.length_replicate, lengthBytes_length]

/-- The padding up to the length field: 0x80 and the zero fill (R183). -/
theorem zeroFill_padByte (c : ShaContext) (h : c.fill < 64) :
    zeroFill 64 (padByte 0x80 c) = padBytes (0x80 :: List.replicate ((119 - c.fill) % 64) 0x00) c := by
  have hfill : (padByte 0x80 c).fill = (c.fill + 1) % 64 := by rw [padByte_fill]; split <;> omega
  have hzeros : (120 - (padByte 0x80 c).fill) % 64 = (119 - c.fill) % 64 := by omega
  rw [zeroFill_eq_padBytes 64 _ (by omega) (by omega), hzeros, padBytes_cons]

/-- SHA.FINAL on the context: `AppendByte` of each byte of the padding (R183). -/
theorem finalContext_eq (c : ShaContext) (h : c.fill < 64) :
    let bits := c.bitlen + BitVec.ofNat 64 (8 * c.fill)
    finalContext c = { padBytes (padding c.fill bits) c with bitlen := bits, state := .finalized } := by
  intro bits
  have hzeros := zeroFill_padByte { c with bitlen := bits } h
  have h56 := padBytes_fill (0x80 :: List.replicate ((119 - c.fill) % 64) 0x00) c h
  rw [List.length_cons, List.length_replicate] at h56
  rw [padBytes_withBitlen] at hzeros
  rw [padding, ← List.cons_append, padBytes_append, padBytes_of_eq (lengthBytes bits) _ (by omega)
    (by rw [lengthBytes_length]; omega), finalContext, hzeros]
  generalize padBytes (0x80 :: List.replicate ((119 - c.fill) % 64) 0x00) c = d at h56
  have hd : d.fill = 56 := by omega
  simp only [writeLength_eq_overlay, hd]

/-! ## The completions (43_sha_commands R181 to R183) -/

/-- Settles O15: the completion writes the fresh context, whose running state words are the initial ones. -/
theorem initCreatesAContext : Obligations.InitCreatesAContext := by
  intro s ht hc
  simpa only [Inflight.instr, completed, retire, initContext, initialHash] using exec_engine .init s ht hc

/-- The completion of SHA.UPDATE (R182). -/
theorem exec_shaUpdate_engine {s : State} {n : Nat} {d : Vector Word 16} (ht : s.turn = .engine)
    (hc : s.inflight = some (.update n d)) :
    exec (.shaUpdate n) s =
      .next { s with sha := updateContext (messageBytes n d) s.sha, inflight := none, done := true } := by
  simpa only [Inflight.instr, completed, retire] using exec_engine (.update n d) s ht hc

/-- The completion of SHA.FINAL (R183). -/
theorem exec_shaFinal_engine {s : State} (ht : s.turn = .engine) (hc : s.inflight = some .final) :
    exec .shaFinal s = .next { s with sha := finalContext s.sha, inflight := none, done := true } := by
  simpa only [Inflight.instr, completed, retire] using exec_engine .final s ht hc

theorem messageBytes_length {n : Nat} (d : Vector Word 16) (h : n ≤ 64) : (messageBytes n d).length = n := by
  simp [messageBytes, h]

/-- Message byte i is byte `i mod 4` of SHA_DIN(i div 4) (30_encoding R100). -/
theorem messageBytes_getD {n i : Nat} (d : Vector Word 16) (h : n ≤ 64) (hi : i < n) :
    (messageBytes n d).getD i 0 = byteOf (d.toList.getD (i / 4) 0) (i % 4) := by
  rw [messageBytes, List.getD_eq_getElem?_getD, List.getElem?_take_of_lt hi, ← List.getD_eq_getElem?_getD,
    bytesOf_getD d i (by omega)]

/-- SHA.UPDATE of bytes that leave room in the buffer (R182). -/
theorem updateContext_of_lt (m : List Byte) (c : ShaContext) (h : c.fill + m.length < 64) :
    updateContext m c = { c with buf := overlay c.buf c.fill m, fill := c.fill + m.length } := by
  have hq : 512 * ((c.fill + m.length) / 64) = 0 := by omega
  rw [updateContext_eq m c (by omega), padBytes_of_lt m c h, hq]
  simp

/-- The buffer that the first bytes of a message fill. -/
def filled (m : List Byte) (c : ShaContext) : Vector Byte 64 := overlay c.buf c.fill (m.take (64 - c.fill))

theorem filled_getElem (m : List Byte) (c : ShaContext) (h : 64 ≤ c.fill + m.length) {j : Nat} (hj : j < 64) :
    (filled m c)[j] = if j < c.fill then c.buf[j] else m.getD (j - c.fill) 0 := by
  rw [filled, overlay_getElem _ _ _ hj, List.length_take]
  by_cases hlt : j < c.fill
  · rw [if_neg (by omega), if_pos hlt]
  · rw [if_pos (by omega), if_neg hlt, List.getD_eq_getElem?_getD, List.getElem?_take_of_lt (by omega),
      ← List.getD_eq_getElem?_getD]

/-- SHA.UPDATE of bytes that fill the buffer: those that fill it, one compression, and the others from index 0 on
(R182). -/
theorem updateContext_of_ge (m : List Byte) (c : ShaContext) (hf : c.fill < 64) (hm : m.length ≤ 64)
    (h : 64 ≤ c.fill + m.length) :
    updateContext m c =
      { c with
        buf := overlay (filled m c) 0 (m.drop (64 - c.fill)), fill := c.fill + m.length - 64
        bitlen := c.bitlen + 512, h := compress c.h (filled m c) } := by
  have hq : 512 * ((c.fill + m.length) / 64) = 512 := by omega
  have hlen : c.fill + m.length - 64 = m.length - (64 - c.fill) := by omega
  have hpad : padBytes m c = padBytes (m.drop (64 - c.fill)) (padBytes (m.take (64 - c.fill)) c) := by
    rw [← padBytes_append, List.take_append_drop]
  rw [updateContext_eq m c hf, hq, hpad, padBytes_of_eq _ c hf (by rw [List.length_take]; omega),
    padBytes_of_lt _ _ (by simp only [List.length_drop]; omega), hlen]
  simp only [List.length_drop, Nat.zero_add]
  rfl

/-- Settles O16: the bytes land from the fill on, or fill the buffer and go on from index 0. -/
theorem updateAppendsTheMessageBytes : Obligations.UpdateAppendsTheMessageBytes := by
  intro s n d ht hc hn hf f m
  have hlen := messageBytes_length d hn
  have hbyte {i : Nat} (hi : i < n) : (messageBytes n d).getD i 0 = m i := messageBytes_getD d hn hi
  rw [exec_shaUpdate_engine ht hc]
  refine ⟨fun hlt => ⟨overlay s.sha.buf f (messageBytes n d), ?_, fun j => ?_⟩, fun hge =>
    ⟨filled (messageBytes n d) s.sha, overlay (filled (messageBytes n d) s.sha) 0 ((messageBytes n d).drop (64 - f)),
      ?_, fun j => ?_, fun j => ?_⟩⟩
  · rw [updateContext_of_lt _ _ (by rwa [hlen]), hlen]
  · rw [Fin.getElem_fin, overlay_getElem _ _ _ j.isLt, hlen]
    split
    · exact hbyte (by omega)
    · rfl
  · rw [updateContext_of_ge _ _ hf (by omega) (by omega), hlen]
  · rw [Fin.getElem_fin, filled_getElem _ _ (by omega) j.isLt]
    split
    · rfl
    · exact hbyte (by omega)
  · rw [Fin.getElem_fin, overlay_getElem _ _ _ j.isLt, List.length_drop, hlen]
    by_cases hj : j.val < f + n - 64
    · have hidx : 64 - f + (j.val - 0) = j.val + 64 - f := by omega
      rw [if_pos (by omega), if_pos hj, List.getD_eq_getElem?_getD, List.getElem?_drop, ← List.getD_eq_getElem?_getD,
        hidx, hbyte (by omega)]
    · rw [if_neg (by omega), if_neg hj]
      rfl

/-- A block's zeros and its length field: zeros below k, then the length's bytes. -/
theorem zeros_lengthBytes_getD (k : Nat) (bits : BitVec 64) {i : Nat} (hi : i < k + 8) :
    (List.replicate k 0x00 ++ lengthBytes bits).getD i 0 =
      if i < k then 0x00 else bits.extractLsb' (56 - 8 * (i - k)) 8 := by
  by_cases hlt : i < k
  · rw [List.getD_append _ _ _ _ (by simpa using hlt), List.getD_replicate _ hlt, if_pos hlt]
  · rw [List.getD_append_right _ _ _ _ (by simpa using hlt), List.length_replicate, if_neg hlt,
      lengthBytes_getD bits (by omega)]

/-- SHA.FINAL of a fill that leaves room for the length: one padded block (R183). -/
theorem finalContext_of_le (c : ShaContext) (h : c.fill ≤ 55) :
    let bits := c.bitlen + BitVec.ofNat 64 (8 * c.fill)
    let last := overlay c.buf c.fill (padding c.fill bits)
    finalContext c = { buf := last, fill := 0, bitlen := bits, h := compress c.h last, state := .finalized } := by
  intro bits last
  rw [finalContext_eq c (by omega), padBytes_of_eq _ c (by omega) (by rw [padding_length]; omega)]

theorem overlay_padding_getElem (b : Vector Byte 64) {f : Nat} (h : f ≤ 55) (bits : BitVec 64) {j : Nat}
    (hj : j < 64) :
    (overlay b f (padding f bits))[j] =
      if j < f then b[j] else if j = f then 0x80 else if j < 56 then 0x00
      else bits.extractLsb' (56 - 8 * (j - 56)) 8 := by
  have hzeros : (119 - f) % 64 = 55 - f := by omega
  rw [padding, hzeros, overlay_cons_getElem _ _ _ _ hj (by simp; omega)]
  by_cases hbelow : j < f
  · rw [if_pos hbelow, if_pos hbelow]
  by_cases hat : j = f
  · rw [if_neg hbelow, if_pos hat, if_neg hbelow, if_pos hat]
  · have hin : j - (f + 1) < 55 - f ↔ j < 56 := by omega
    have hsub : j - (f + 1) - (55 - f) = j - 56 := by omega
    rw [if_neg hbelow, if_neg hat, if_neg hbelow, if_neg hat, zeros_lengthBytes_getD _ _ (by omega), hsub]
    simp only [hin]

/-- The block that 0x80 and zeros fill up. -/
def firstPadded (c : ShaContext) : Vector Byte 64 :=
  overlay c.buf c.fill (0x80 :: List.replicate (63 - c.fill) 0x00)

theorem firstPadded_getElem (c : ShaContext) (hf : c.fill < 64) {j : Nat} (hj : j < 64) :
    (firstPadded c)[j] = if j < c.fill then c.buf[j] else if j = c.fill then 0x80 else 0x00 := by
  rw [firstPadded, overlay_cons_getElem _ _ _ _ hj (by rw [List.length_replicate]; omega)]
  split_ifs
  · rfl
  · rfl
  · rw [List.getD_replicate _ (by omega)]

/-- SHA.FINAL of a fill that leaves no room for the length: the block that 0x80 and zeros fill up, and one of zeros and
the length (R183). -/
theorem finalContext_of_ge (c : ShaContext) (h : 56 ≤ c.fill) (hf : c.fill < 64) :
    let bits := c.bitlen + BitVec.ofNat 64 (8 * c.fill)
    let last := overlay (firstPadded c) 0 (List.replicate 56 0x00 ++ lengthBytes bits)
    finalContext c =
      { buf := last, fill := 0, bitlen := bits, h := compress (compress c.h (firstPadded c)) last
        state := .finalized } := by
  intro bits last
  have hn : (119 - c.fill) % 64 = 63 - c.fill + 56 := by omega
  have hpad : padding c.fill bits =
      (0x80 :: List.replicate (63 - c.fill) 0x00) ++ (List.replicate 56 0x00 ++ lengthBytes bits) := by
    rw [padding, hn, List.replicate_add, List.append_assoc, List.cons_append]
  rw [finalContext_eq c hf, hpad, padBytes_append, padBytes_of_eq _ c hf (by simp; omega),
    padBytes_of_eq _ _ (by simp) (by simp)]
  rfl

/-- Settles O17: the padding is one list of bytes, cut where it fills the buffer. -/
theorem finalPadsAndCompresses : Obligations.FinalPadsAndCompresses := by
  intro s ht hc hf f bits lengthByte ends
  refine ⟨fun hle => ⟨overlay s.sha.buf f (padding f bits), ?_, fun j => ?_⟩, fun hge =>
    ⟨firstPadded s.sha, overlay (firstPadded s.sha) 0 (List.replicate 56 0x00 ++ lengthBytes bits), ?_, fun j => ?_,
      fun j => ?_⟩⟩
  · exact (exec_shaFinal_engine ht hc).trans (by rw [finalContext_of_le _ hle])
  · exact overlay_padding_getElem s.sha.buf hle bits j.isLt
  · exact (exec_shaFinal_engine ht hc).trans (by rw [finalContext_of_ge _ hge hf])
  · exact firstPadded_getElem s.sha hf j.isLt
  · rw [Fin.getElem_fin, overlay_getElem _ _ _ j.isLt, if_pos (by simp), Nat.sub_zero,
      zeros_lengthBytes_getD 56 bits j.isLt]

/-! ## The life cycle of the context (43_sha_commands R184) -/

theorem checks_shaUpdate {s : State} {n : Nat} (hn : n ≤ 64) (h : s.sha.state = .active) :
    checks (.shaUpdate n) s = .ok (.update n s.shaDin) := by
  rw [checks, checkUpdate, if_neg (by omega), if_pos h]

theorem checks_shaFinal {s : State} (h : s.sha.state = .active) : checks .shaFinal s = .ok .final := if_pos h

theorem checks_shaUpdate_error {s : State} {n : Nat} (hn : n ≤ 64) (h : s.sha.state ≠ .active) :
    checks (.shaUpdate n) s = .error .noCtx := by
  rw [checks, checkUpdate, if_neg (by omega), if_neg h]

theorem checks_shaFinal_error {s : State} (h : s.sha.state ≠ .active) : checks .shaFinal s = .error .noCtx := if_neg h

/-- In the host's turn an idle CORE accepts what a command's checks let through (70_reset_and_hazards R237). -/
theorem exec_host_of_ok {i : Instr} {s : State} {c : Inflight} (ht : s.turn = .host) (hidle : s.inflight = none)
    (h : checks i s = .ok c) : exec i s = .next (accept c s) := by
  rw [exec_host_eq i s ht, h]
  simp [issue, State.busy, hidle]

/-- In the host's turn an idle CORE records the error a command's checks find (60_exceptions R203). -/
theorem exec_host_of_error {i : Instr} {s : State} {code : ErrCode} (ht : s.turn = .host) (hidle : s.inflight = none)
    (h : checks i s = .error code) : exec i s = .next (raiseCmdError code s) := by
  rw [exec_host_eq i s ht, h]
  simp [issue, State.busy, hidle]

/-- Settles O18: the checks decide acceptance by the context state, and each completion writes the state it leads to. -/
theorem contextLifeCycle : Obligations.ContextLifeCycle := by
  refine ⟨fun s ht hidle => ⟨⟨_, exec_host_of_ok ht hidle rfl, rfl, rfl⟩, fun n hn => ?_⟩,
    fun s t n d ht => ⟨fun hc he => ?_, fun hc ha he => ?_, fun hc he => ?_⟩⟩
  · by_cases ha : s.sha.state = .active
    · exact ⟨_, _, exec_host_of_ok ht hidle (checks_shaUpdate hn ha), exec_host_of_ok ht hidle (checks_shaFinal ha),
        rfl, rfl, fun _ => ⟨rfl, rfl⟩, fun hne => absurd ha hne⟩
    · exact ⟨_, _, exec_host_of_error ht hidle (checks_shaUpdate_error hn ha),
        exec_host_of_error ht hidle (checks_shaFinal_error ha), rfl, rfl, fun h => absurd h ha, fun _ => ⟨rfl, rfl⟩⟩
  · cases (initCreatesAContext s ht hc).symm.trans he
    rfl
  · cases (exec_shaUpdate_engine ht hc).symm.trans he
    exact (updateContext_state _ _).trans ha
  · cases (exec_shaFinal_engine ht hc).symm.trans he
    exact (finalContext_bounds s.sha).2.1

/-! ## The digest of a message (43_sha_commands R185) -/

/-- The blocks of a message compressed in order (42_sha_datapath R166). -/
def compressBlocks (m : List Byte) (n : Nat) (h : Digest) : Digest :=
  (List.range n).foldl (fun h k => compress h (messageBlock m k)) h

/-- The first block first, then the blocks of what follows it. -/
theorem compressBlocks_succ (m : List Byte) (n : Nat) (h : Digest) :
    compressBlocks m (n + 1) h = compressBlocks (m.drop 64) n (compress h (messageBlock m 0)) := by
  have hblock (k : Nat) : messageBlock m (k + 1) = messageBlock (m.drop 64) k := by
    apply Vector.ext
    intro j hj
    have hidx : 64 * (k + 1) + j = 64 + (64 * k + j) := by omega
    simp [messageBlock, hidx]
  rw [compressBlocks, List.range_succ_eq_map, List.foldl_cons, List.foldl_map]
  simp only [hblock, Nat.succ_eq_add_one]
  rfl

/-- The buffer that a message's first block fills from index 0. -/
theorem overlay_zero_take (b : Vector Byte 64) {m : List Byte} (h : 64 ≤ m.length) :
    overlay b 0 (m.take 64) = messageBlock m 0 := by
  apply Vector.ext
  intro j hj
  rw [overlay_getElem _ _ _ hj, if_pos (by rw [List.length_take]; omega)]
  simp [messageBlock, List.getElem?_take_of_lt hj]

/-- Whole blocks through the buffer are compressed one after the other. -/
theorem padBytes_h_of_blocks (n : Nat) (m : List Byte) (c : ShaContext) (hc : c.fill = 0) (hm : m.length = 64 * n) :
    (padBytes m c).h = compressBlocks m n c.h := by
  induction n generalizing m c with
  | zero =>
    obtain rfl : m = [] := List.length_eq_zero_iff.mp hm
    rfl
  | succ n ih =>
    have hfirst := padBytes_of_eq (m.take 64) c (by omega) (by rw [hc, List.length_take]; omega)
    rw [hc, overlay_zero_take _ (by omega)] at hfirst
    rw [compressBlocks_succ, ← List.take_append_drop 64 m, padBytes_append, hfirst,
      ih _ _ rfl (by rw [List.length_drop]; omega), List.take_append_drop]

/-- A padded message is the message and the padding of the fill it leaves. -/
theorem padMessage_eq (m : List Byte) :
    padMessage m = m ++ padding (m.length % 64) (BitVec.ofNat 64 (8 * m.length)) := by
  simp [padMessage, padding, lengthBytes]

theorem padMessage_length_mod (m : List Byte) : (padMessage m).length % 64 = 0 := by
  rw [padMessage_eq, List.length_append, padding_length]
  omega

/-- One SHA.INIT, the message and SHA.FINAL leave its digest. -/
theorem finalContext_updateContext_initContext (m : List Byte) :
    (finalContext (updateContext m initContext)).h = sha256 m := by
  obtain ⟨hfill0, hbits0, -⟩ := initContext_bounds
  have hup := updateContext_eq m initContext (by omega)
  have hfill : (updateContext m initContext).fill = m.length % 64 := by
    rw [hup]; exact (padBytes_fill m initContext (by omega)).trans (by rw [hfill0, Nat.zero_add])
  have hbits : (updateContext m initContext).bitlen + BitVec.ofNat 64 (8 * (updateContext m initContext).fill) =
      BitVec.ofNat 64 (8 * m.length) := by
    have hlen : 512 * (m.length / 64) + 8 * (m.length % 64) = 8 * m.length := by omega
    rw [hfill, hup, hbits0, hfill0, ← hlen, BitVec.ofNat_add]
    simp
  have hblocks : (padMessage m).length = 64 * ((padMessage m).length / 64) := by
    have := padMessage_length_mod m
    omega
  rw [finalContext_eq _ (by omega), hbits, hfill, hup, padBytes_withBitlen]
  calc (padBytes (padding (m.length % 64) (BitVec.ofNat 64 (8 * m.length))) (padBytes m initContext)).h
      = (padBytes (padMessage m) initContext).h := by rw [padMessage_eq, padBytes_append]
    _ = compressBlocks (padMessage m) ((padMessage m).length / 64) initialHash :=
        padBytes_h_of_blocks _ _ _ hfill0 hblocks
    _ = sha256 m := rfl

/-- Updates one after the other are one update of the whole message. -/
theorem foldl_updateContext (chunks : List (List Byte)) (c : ShaContext) :
    chunks.foldl (fun c m => updateContext m c) c = updateContext chunks.flatten c := by
  induction chunks generalizing c with
  | nil => rfl
  | cons m chunks ih => rw [List.foldl_cons, ih, List.flatten_cons, updateContext_append]

/-- Settles O45: the updates see the bytes of the whole message in order, and so does the padded message's digest. -/
theorem streamingGivesTheDigestOfTheMessage : Obligations.StreamingGivesTheDigestOfTheMessage := by
  intro chunks
  rw [foldl_updateContext, finalContext_updateContext_initContext]

/-! ## Hashing through the registers (43_sha_commands R185) -/

/-- Words of a group written one by one: a word stands where it is written, or where it stood before. -/
theorem foldl_set_getElem {n : Nat} (d : Vector Word n) (ps : List (Fin n × Word)) (hps : ∀ p ∈ ps, p.2 = d[p.1])
    (w : Vector Word n) {i : Fin n} (hi : i ∈ ps.map Prod.fst ∨ w[i] = d[i]) :
    (ps.foldl (fun v p => v.set p.1 p.2) w)[i] = d[i] := by
  induction ps generalizing w with
  | nil => simpa using hi
  | cons p ps ih =>
    have hp : p.2 = d[p.1] := hps p List.mem_cons_self
    refine ih (fun q hq => hps q (List.mem_cons_of_mem p hq)) _ ?_
    by_cases hip : i = p.1
    · subst hip
      exact .inr (by simp [hp])
    · have hne : p.1.val ≠ i.val := fun h => hip (Fin.ext h.symm)
      simpa [hip, Vector.getElem_set_ne _ _ hne] using hi

/-- Every word of a group written in order gives the group. -/
theorem foldl_set_zip_finRange {n : Nat} (d w : Vector Word n) :
    ((List.finRange n).zip d.toList).foldl (fun v p => v.set p.1 p.2) w = d := by
  apply Vector.ext
  intro i hi
  have hfst : ((List.finRange n).zip d.toList).map Prod.fst = List.finRange n := List.map_fst_zip (by simp)
  have hword : ∀ p ∈ (List.finRange n).zip d.toList, p.2 = d[p.1] := by
    intro p hp
    obtain ⟨k, hk, rfl⟩ := List.getElem_of_mem hp
    simp
  exact foldl_set_getElem d _ hword w (i := ⟨i, hi⟩) (.inl (by rw [hfst]; exact List.mem_finRange _))

/-- Writes to the message registers. -/
theorem run_shaDin_writes {s : State} (n : Nat) (ps : List (Fin 16 × Word)) {rest : List Event}
    (hr : s.resetHeld = false) (he : s.events = (ps.map fun p => wrEvent (.shaDin p.1) p.2) ++ rest) :
    ∃ r, core.run (n + ps.length) s = core.run n
      { s with shaDin := ps.foldl (fun v p => v.set p.1 p.2) s.shaDin, events := rest, response := r } := by
  induction ps generalizing s with
  | nil => exact ⟨s.response, by rw [← show s.events = rest from he]; rfl⟩
  | cons p ps ih =>
    have hfirst := run_succ (n + ps.length) (step_wrEvent (r := .shaDin p.1) hr (by simp) he)
    obtain ⟨r, hrest⟩ := ih (s := respond .writeDone (writeRegister (.shaDin p.1) p.2
      { s with events := (ps.map fun p => wrEvent (.shaDin p.1) p.2) ++ rest })) hr rfl
    exact ⟨r, hfirst.trans hrest⟩

/-- The sixteen words of a chunk written to SHA_DIN0..15 (30_encoding R102). -/
theorem run_ldmsg {s : State} (n : Nat) (d : Vector Word 16) {rest : List Event} (hr : s.resetHeld = false)
    (he : s.events = (HostLine.ldmsg d.toList).expand ++ rest) :
    ∃ r, core.run (n + 16) s = core.run n { s with shaDin := d, events := rest, response := r } := by
  obtain ⟨r, h⟩ := run_shaDin_writes n ((List.finRange 16).zip d.toList) hr he
  have hlen : ((List.finRange 16).zip d.toList).length = 16 := by simp
  rw [foldl_set_zip_finRange, hlen] at h
  exact ⟨r, h⟩

/-- What a completed SHA command leaves: an idle CORE with reset released, and the AES state and the error record as
they were (10_state R46, 70_reset_and_hazards R238). -/
structure IdleAfterSha (s t : State) : Prop where
  resetHeld : t.resetHeld = false
  inflight : t.inflight = none
  cipher : t.cipher = s.cipher
  aesDin : t.aesDin = s.aesDin
  aesDout : t.aesDout = s.aesDout
  key : t.key = s.key
  err : t.err = s.err
  errcode : t.errcode = s.errcode

theorem IdleAfterSha.trans {s t u : State} (h : IdleAfterSha s t) (h' : IdleAfterSha t u) : IdleAfterSha s u where
  resetHeld := h'.resetHeld
  inflight := h'.inflight
  cipher := h'.cipher.trans h.cipher
  aesDin := h'.aesDin.trans h.aesDin
  aesDout := h'.aesDout.trans h.aesDout
  key := h'.key.trans h.key
  err := h'.err.trans h.err
  errcode := h'.errcode.trans h.errcode

/-- The completion of a SHA command, whatever the message words loaded before it and the model's own fields. -/
theorem idleAfterSha_completed {c : Inflight} {s : State} (d : Vector Word 16) (events : List Event)
    (response : BusResponse) (turn : Agent) (hc : c.writesSha = true) (hr : s.resetHeld = false) :
    IdleAfterSha s
      (retire (completed c { s with shaDin := d, events := events, response := response, turn := turn })) where
  resetHeld := by simpa using hr
  inflight := rfl
  cipher := (completed_aes_of_sha hc _).1
  aesDin := by simp
  aesDout := (completed_aes_of_sha hc _).2
  key := by simp
  err := by simp
  errcode := by simp

/-- SHA.INIT and SHA.FINAL through CMD: a command without an operand, completed. -/
theorem run_sha_cmd {s : State} {i : Instr} {c : Inflight} {rest : List Event} (n : Nat) (hi : i.wellFormed = true)
    (hc : c.writesSha = true) (hok : ∀ t : State, t.sha = s.sha → checks i t = .ok c) (hr : s.resetHeld = false)
    (hidle : s.inflight = none) (he : s.events = (HostLine.cmd i).expand ++ .complete :: rest) :
    ∃ t : State, core.run (n + 2) s = core.run n t ∧ t.events = rest ∧ t.sha = (completed c s).sha ∧
      IdleAfterSha s t := by
  refine ⟨_, run_cmd_complete n hi (hok _ rfl) hr hidle he, by simp, ?_, idleAfterSha_completed s.shaDin rest _ _ hc hr⟩
  rw [retire_sha, completed_sha, completed_sha]

/-- One chunk: its words loaded, and SHA.UPDATE of its bytes completed (R182). -/
theorem run_chunk {s : State} (n : Nat) (chunk : Nat × Vector Word 16) {rest : List Event} (hlen : chunk.1 ≤ 64)
    (hactive : s.sha.state = .active) (hr : s.resetHeld = false) (hidle : s.inflight = none)
    (he : s.events = chunkEvents chunk ++ rest) :
    ∃ t : State, core.run (n + 18) s = core.run n t ∧ t.events = rest ∧
      t.sha = updateContext (messageBytes chunk.1 chunk.2) s.sha ∧ IdleAfterSha s t := by
  obtain ⟨k, d⟩ := chunk
  have hi : (Instr.shaUpdate k).wellFormed = true := decide_eq_true (show k < 128 by simp only at hlen; omega)
  obtain ⟨r, hload⟩ := run_ldmsg (n + 2) d hr
    (he.trans (by rw [chunkEvents, List.append_assoc, List.append_assoc]))
  refine ⟨_, hload.trans (run_cmd_complete n hi (checks_shaUpdate hlen hactive) hr hidle rfl), ?_, ?_,
    idleAfterSha_completed d rest _ _ rfl hr⟩
  · simp
  · rw [retire_sha, completed_sha]

theorem chunkEvents_length (chunk : Nat × Vector Word 16) : (chunkEvents chunk).length = 18 := by
  simp [chunkEvents, HostLine.expand]

/-- The chunks of a message one after the other (R185). -/
theorem run_chunks {s : State} (n : Nat) (chunks : List (Nat × Vector Word 16)) {rest : List Event}
    (hlen : ∀ c ∈ chunks, c.1 ≤ 64) (hactive : s.sha.state = .active) (hr : s.resetHeld = false)
    (hidle : s.inflight = none) (he : s.events = chunks.flatMap chunkEvents ++ rest) :
    ∃ t : State, core.run (n + (chunks.flatMap chunkEvents).length) s = core.run n t ∧ t.events = rest ∧
      t.sha = updateContext (chunks.flatMap fun c => messageBytes c.1 c.2) s.sha ∧ IdleAfterSha s t := by
  induction chunks generalizing s with
  | nil => exact ⟨s, rfl, he, rfl, hr, hidle, rfl, rfl, rfl, rfl, rfl, rfl⟩
  | cons chunk chunks ih =>
    rw [List.flatMap_cons, List.append_assoc] at he
    obtain ⟨t, hrunT, heventsT, hshaT, hT⟩ := run_chunk (n + (chunks.flatMap chunkEvents).length) chunk
      (hlen chunk List.mem_cons_self) hactive hr hidle he
    obtain ⟨u, hrunU, heventsU, hshaU, hU⟩ := ih (fun c hc => hlen c (List.mem_cons_of_mem chunk hc))
      (by rw [hshaT, updateContext_state, hactive]) hT.resetHeld hT.inflight heventsT
    refine ⟨u, ?_, heventsU, ?_, hT.trans hU⟩
    · rw [List.flatMap_cons, List.length_append, chunkEvents_length, Nat.add_comm 18, ← Nat.add_assoc, hrunT, hrunU]
    · rw [hshaU, hshaT, List.flatMap_cons, updateContext_append]

/-- Settles O46: SHA.INIT, the chunks and SHA.FINAL, each run through CMD. -/
theorem hashingThroughTheRegisters : Obligations.HashingThroughTheRegisters := by
  intro s chunks hr hidle hlen
  have hsplit : hashEvents chunks = (HostLine.cmd .shaInit).expand ++ .complete ::
      (chunks.flatMap chunkEvents ++ ((HostLine.cmd .shaFinal).expand ++ [.complete])) := by
    simp [hashEvents]
  have hcount : (hashEvents chunks).length = 0 + 2 + (chunks.flatMap chunkEvents).length + 2 := by
    rw [hsplit]
    simp [HostLine.expand]
    omega
  obtain ⟨t, hrunT, heventsT, hshaT, hT⟩ := run_sha_cmd (s := { s with events := hashEvents chunks }) (c := .init)
    (0 + 2 + (chunks.flatMap chunkEvents).length) rfl rfl (fun _ _ => rfl) hr hidle hsplit
  rw [completed_sha] at hshaT
  obtain ⟨u, hrunU, heventsU, hshaU, hU⟩ := run_chunks (0 + 2) chunks hlen (by rw [hshaT]; rfl) hT.resetHeld hT.inflight
    heventsT
  have hactive : u.sha.state = .active := by rw [hshaU, hshaT]; exact updateContext_state _ _
  obtain ⟨v, hrunV, heventsV, hshaV, hV⟩ := run_sha_cmd (c := .final) 0 rfl rfl
    (fun w hw => checks_shaFinal (hw ▸ hactive)) hU.resetHeld hU.inflight heventsU
  rw [completed_sha] at hshaV
  have hall := hT.trans (hU.trans hV)
  refine ⟨v, ?_, heventsV, ?_, ?_, hall.cipher, hall.aesDin, hall.aesDout, hall.key, hall.err, hall.errcode⟩
  · rw [hcount, hrunT, hrunU, hrunV]; rfl
  · rw [hshaV]; exact (finalContext_bounds u.sha).2.1
  · rw [hshaV, hshaU, hshaT, finalContext_updateContext_initContext]

end Sys2Proof.Machine
end

section
/-! SUPPORT. Proofs of the statements about errors (60_exceptions): that every event leads to a next state, the first error
of a word written to CMD, the errors of each command's own checks, and a word written while busy. -/

namespace Sys2Proof.Machine

open Sys2Proof.Safety

/-! ## Every event leads to a next state (60_exceptions R200, R215) -/

theorem exec_answers_next (i : Instr) (s : State) : ∃ t, exec i s = .next t := by
  cases ht : s.turn with
  | host => exact ⟨_, exec_host_eq i s ht⟩
  | engine =>
    obtain h | ⟨_, _, _, h⟩ := exec_engine_cases i s ht
    · exact ⟨_, h⟩
    · exact ⟨_, h⟩

theorem engineStep_answers_next (s : State) : ∃ t, engineStep s = .next t := by
  unfold engineStep
  split
  · split
    · exact ⟨_, rfl⟩
    · exact exec_answers_next _ _
  · exact ⟨_, rfl⟩

theorem accessRegister_answers_next (r : Reg) (op : BusOp) (s : State) : ∃ t, accessRegister r op s = .next t := by
  unfold accessRegister
  split
  · exact ⟨_, rfl⟩
  · exact ⟨_, issueWord_eq _ _⟩
  · exact ⟨_, rfl⟩

theorem hostAccess_answers_next (a : Access) (s : State) : ∃ t, hostAccess a s = .next t := by
  unfold hostAccess
  split
  · exact ⟨_, rfl⟩
  · split_ifs
    · exact ⟨_, rfl⟩
    · exact accessRegister_answers_next _ _ _
    · exact ⟨_, rfl⟩

theorem takeEvent_answers_next (e : Event) (s : State) : ∃ t, takeEvent e s = .next t := by
  cases e with
  | access a => exact hostAccess_answers_next a s
  | complete => exact engineStep_answers_next s
  | resetPin asserted => exact ⟨_, rfl⟩

/-- Settles O4: the step is the engine's when no event is to come, and the first event's otherwise. -/
theorem noEventStopsTheCore : Obligations.NoEventStopsTheCore := by
  intro s
  rw [step, nextEvent]
  split
  · exact engineStep_answers_next s
  · exact takeEvent_answers_next _ _

/-! ## With nothing in flight (60_exceptions R223) -/

theorem engineStep_of_idle {s : State} (h : s.inflight = none) : engineStep s = .next s := by
  rw [engineStep, h]

/-- Settles O3: the engine's move is the engine's step, which does nothing for an idle CORE. -/
theorem idleKeepsEverything : Obligations.IdleKeepsEverything := fun _ hidle hm =>
  (step_of_engineMoves hm).trans (engineStep_of_idle hidle)

/-! ## The errors a write to CMD records (60_exceptions R203, R206 to R209) -/

/-- Settles O9: a word without an error is accepted, and of a word with errors the first is recorded. -/
theorem cmdWriteRaisesTheFirstErrorOrAccepts : Obligations.CmdWriteRaisesTheFirstErrorOrAccepts := fun _ _ _ hr he =>
  ⟨step_cmdWrite_of_ok hr he, step_cmdWrite_of_error hr he⟩

theorem checks_aesEnc_error {s : State} (h : s.cipher.keyvalid = false) : checks .aesEnc s = .error .noKey :=
  if_neg (by simp [h])

theorem checks_aesDec_error {s : State} (h : s.cipher.keyvalid = false) : checks .aesDec s = .error .noKey :=
  if_neg (by simp [h])

theorem checks_shaUpdate_tooLong {n : Nat} (s : State) (h : 65 ≤ n) : checks (.shaUpdate n) s = .error .len := if_pos h

/-- Settles O11: each command's checks find its error, and an idle CORE records the error they find. -/
theorem fieldAndStateErrorsChangeNothingElse : Obligations.FieldAndStateErrorsChangeNothingElse := by
  intro s ht hidle
  have records {i : Instr} {code : ErrCode} (h : checks i s = .error code) :
      exec i s = .next { s with err := true, errcode := code } := exec_host_of_error ht hidle h
  refine ⟨records rfl, fun hk => ?enc, fun hk => ?dec, fun n hn ha => ?update, fun ha => ?final, fun n hn _ => ?tooLong⟩
  case enc => exact records (checks_aesEnc_error hk)
  case dec => exact records (checks_aesDec_error hk)
  case update => exact records (checks_shaUpdate_error hn ha)
  case final => exact records (checks_shaFinal_error ha)
  case tooLong => exact records (checks_shaUpdate_tooLong s hn)

/-! ## A write to CMD while busy (60_exceptions R204) -/

theorem issueError_of_inflight {s : State} {c : Inflight} (v : Word) (hc : s.inflight = some c) :
    issueError v s = .busy :=
  if_pos (by simp [State.busy, hc])

/-- A write to CMD while a command is in flight records E_BUSY and leaves the command in flight. -/
theorem step_cmdWrite_of_inflight {s : State} {c : Inflight} {v : Word} {rest : List Event} (hr : s.resetHeld = false)
    (hc : s.inflight = some c) (he : s.events = cmdWrite v :: rest) :
    step s = .next (raiseCmdError .busy { s with events := rest, response := .writeDone, turn := .host }) := by
  have hbusy := issueError_of_inflight v hc
  rw [step_cmdWrite_of_error hr he (by simp [hbusy]), hbusy]

/-- A completion neither reads nor writes the error record, the events to come and the answer to the latest access. -/
theorem retire_completed_withRecord (c : Inflight) (s : State) (events : List Event) (response : BusResponse) (err : Bool)
    (code : ErrCode) :
    retire (completed c { s with events := events, response := response, err := err, errcode := code }) =
      { retire (completed c s) with events := events, response := response, err := err, errcode := code } := by
  cases c <;> rfl

/-- Settles O12: the write records E_BUSY, and the completion after it does not read what the write changed. -/
theorem busyWriteDoesNotDisturbTheCommand : Obligations.BusyWriteDoesNotDisturbTheCommand := by
  intro s c v rest hr hc he
  refine ⟨retire (completed c { s with turn := .engine }), exec_engine c _ rfl hc, retire_done _, ?_⟩
  calc core.run 2 s
    _ = core.run 1 _ := run_succ 1 (step_cmdWrite_of_inflight hr hc he)
    _ = core.run 0 _ := run_succ 0 ((step_complete rfl).trans (engineStep_inflight hr hc))
    _ = _ := congrArg _ (retire_completed_withRecord c { s with turn := .engine } rest .writeDone true .busy)

end Sys2Proof.Machine
end

section
/-! SUPPORT. Proofs of the statements about reset and hazards (70_reset_and_hazards): the engine's move and the completion
it leads to, input writes beside a command in flight, the acceptance of each command, accesses under reset, and what LAT
depends on. -/

namespace Sys2Proof.Machine

open Sys2Proof.Safety

/-! ## The engine's move with a command in flight (70_reset_and_hazards R238) -/

/-- With reset released the engine's step is its half of the command in flight. -/
theorem engineStep_eq_exec {s : State} {c : Inflight} (hr : s.resetHeld = false) (hc : s.inflight = some c) :
    engineStep s = exec c.instr { s with turn := .engine } := by
  rw [engineStep, hc]
  exact if_neg (by simp [hr])

/-- Settles O2: the engine's move is the engine's step. -/
theorem stepRunsTheCommandInFlight : Obligations.StepRunsTheCommandInFlight := fun _ _ hr hc hm =>
  (step_of_engineMoves hm).trans (engineStep_eq_exec hr hc)

/-- The engine's move ends the command in flight. -/
theorem step_of_engineMoves_inflight {s : State} {c : Inflight} (hm : EngineMoves s) (hr : s.resetHeld = false)
    (hc : s.inflight = some c) :
    step s = .next (retire (completed c { s with events := s.events.tail, turn := .engine })) :=
  (step_of_engineMoves hm).trans (engineStep_inflight hr hc)

/-- A host access leaves the command in flight, the level of the reset input and the events to come as they are. -/
theorem hostAccess_keeps_inflight {a : Access} {s t : State} {c : Inflight} (h : hostAccess a s = .next t)
    (hc : s.inflight = some c) : t.inflight = some c ∧ t.resetHeld = s.resetHeld ∧ t.events = s.events := by
  rcases hostAccess_cases h with ⟨r, d, rfl⟩ | ⟨v, _, _, hi⟩ | ⟨r, v, _, _, _, rfl⟩
  · exact ⟨hc, rfl, rfl⟩
  · rcases issueWord_cases hi with ⟨code, _, rfl⟩ | ⟨d, _, hidle, _⟩
    · exact ⟨hc, rfl, rfl⟩
    · cases hc.symm.trans hidle
  · simp [hc]

/-- A command in flight completes, by induction on the events to come: the engine's move ends it, and a host access leaves
it in flight with one event fewer to come. -/
theorem run_completes_inflight {s : State} {c : Inflight} {events : List Event} (he : s.events = events)
    (hc : s.inflight = some c) (hr : s.resetHeld = false) (hno : ∀ level, .resetPin level ∉ events) :
    ∃ n t, n ≤ events.length + 1 ∧ core.run n s = .next t ∧ t.inflight = none ∧ t.done = true := by
  induction events generalizing s with
  | nil => exact ⟨1, _, by omega, run_succ 0 (step_of_engineMoves_inflight (.inl he) hr hc), rfl, rfl⟩
  | cons e rest ih =>
    cases e with
    | complete =>
      have hm : EngineMoves s := .inr (by rw [he]; rfl)
      exact ⟨1, _, by omega, run_succ 0 (step_of_engineMoves_inflight hm hr hc), rfl, rfl⟩
    | resetPin level => exact absurd List.mem_cons_self (hno level)
    | access a =>
      obtain ⟨t, ht⟩ := hostAccess_answers_next a { s with events := rest }
      obtain ⟨hcT, hrT, heT⟩ := hostAccess_keeps_inflight ht hc
      obtain ⟨n, u, hn, hrun, hu⟩ := ih heT hcT (hrT.trans hr) fun level hmem => hno level (List.mem_cons_of_mem _ hmem)
      exact ⟨n + 1, u, Nat.succ_le_succ hn, (run_succ n ((step_access he).trans ht)).trans hrun, hu⟩

/-- Settles O37: the completion comes among the events to come or right after them. -/
theorem everyAcceptedCommandCompletes : Obligations.EveryAcceptedCommandCompletes := by
  intro s hin hr hno
  obtain ⟨c, hc⟩ := Option.ne_none_iff_exists'.mp hin
  exact run_completes_inflight rfl hc hr hno

/-! ## Input writes beside a command in flight (70_reset_and_hazards R241) -/

/-- A register write does not touch the model's own fields that a step sets before it. -/
theorem writeRegister_withEventsTurn (r : Reg) (v : Word) (s : State) (rest : List Event) (turn : Agent) :
    writeRegister r v { s with events := rest, turn := turn } =
      { writeRegister r v s with events := rest, turn := turn } := by
  cases r with
  | status => simp only [writeRegister, writeStatus_eq]
  | _ => rfl

/-- A completion does not touch the events to come. -/
theorem retire_completed_withEvents (c : Inflight) (s : State) (rest : List Event) :
    retire (completed c { s with events := rest }) = { retire (completed c s) with events := rest } := by
  cases c <;> rfl

section
variable {s : State} {c : Inflight} {r : Reg} {v : Word} {rest : List Event}

/-- A register write, then the completion of the command in flight. -/
theorem run_wrEvent_complete (hr : s.resetHeld = false) (hc : s.inflight = some c) (hne : r ≠ .cmd)
    (he : s.events = wrEvent r v :: .complete :: rest) :
    core.run 2 s = .next (retire (completed c
      (respond .writeDone (writeRegister r v { s with events := rest, turn := .engine })))) := by
  have hwrite := step_wrEvent hr hne he
  rw [writeRegister_withEvents] at hwrite
  rw [writeRegister_withEventsTurn]
  exact (run_succ 1 hwrite).trans <| run_succ 0 <|
    (step_complete rfl).trans (engineStep_inflight (by simp [hr]) (by simp [hc]))

/-- The completion of the command in flight, then a register write. -/
theorem run_complete_wrEvent (hr : s.resetHeld = false) (hc : s.inflight = some c) (hne : r ≠ .cmd)
    (he : s.events = .complete :: wrEvent r v :: rest) :
    core.run 2 s = .next
      (respond .writeDone (writeRegister r v (retire (completed c { s with events := rest, turn := .engine })))) := by
  have withEvents := retire_completed_withEvents c { s with turn := .engine }
  have hcompletes := ((step_complete he).trans (engineStep_inflight hr hc)).trans (congrArg _ (withEvents _))
  rw [withEvents rest]
  exact (run_succ 1 hcompletes).trans (run_succ 0 (step_wrEvent (by simp [hr]) hne rfl))

end

/-- A completion works on its snapshot: it neither reads nor writes an input register, nor the answer to the write
(10_state R42). -/
theorem retire_completed_inputWrite (c : Inflight) {r : Reg} (v : Word) (s : State)
    (hin : (∃ k, r = .key k) ∨ (∃ k, r = .aesDin k) ∨ ∃ k, r = .shaDin k) :
    retire (completed c (respond .writeDone (writeRegister r v s))) =
      respond .writeDone (writeRegister r v (retire (completed c s))) := by
  rcases hin with ⟨k, rfl⟩ | ⟨k, rfl⟩ | ⟨k, rfl⟩
  · cases c <;> rfl
  · cases c <;> rfl
  · cases c <;> rfl

/-- Settles O38: each order run to its end, and the write moved past the completion. -/
theorem inputWritesCommuteWithCompletion : Obligations.InputWritesCommuteWithCompletion := by
  intro s c r v rest hr hc hin
  have hne : r ≠ .cmd := by rintro rfl; simp at hin
  have hcomm := retire_completed_inputWrite c v { s with events := rest, turn := .engine } hin
  exact ⟨_, run_wrEvent_complete (s := { s with events := wrEvent r v :: .complete :: rest }) hr hc hne rfl,
    (run_complete_wrEvent (s := { s with events := .complete :: wrEvent r v :: rest }) hr hc hne rfl).trans
      (congrArg _ hcomm.symm), retire_done _, by simp⟩

/-! ## The acceptance of each command (70_reset_and_hazards R237) -/

/-- Settles O10: an idle CORE accepts what the command's checks let through. -/
theorem acceptedCommandGoesInFlight : Obligations.AcceptedCommandGoesInFlight := by
  intro s ht hidle
  have accepts {i : Instr} {c : Inflight} (h : checks i s = .ok c) :
      exec i s = .next { s with inflight := some c, done := false } := exec_host_of_ok ht hidle h
  exact ⟨accepts rfl, accepts rfl, accepts rfl, fun hk => accepts (checks_aesEnc hk), fun hk => accepts (checks_aesDec hk),
    accepts rfl, fun n hn ha => accepts (checks_shaUpdate hn ha), fun ha => accepts (checks_shaFinal ha)⟩

/-! ## Accesses under reset (70_reset_and_hazards R232) -/

/-- An access to a register while reset is held. -/
theorem hostAccess_inReset {off : BitVec 8} (hoff : off.toNat % 4 = 0) (op : BusOp) {s : State}
    (hr : s.resetHeld = true) :
    hostAccess { addr := .window off, bytes := 4, op := op } s = .next (accessInReset op s) := by
  have hok : accessOk off 4 = true := by simp [accessOk, hoff]
  exact (if_pos hok).trans (if_pos hr)

/-- Settles O28: the access is taken off the events to come and answered, and nothing else. -/
theorem accessesInResetHaveNoEffect : Obligations.AccessesInResetHaveNoEffect := fun _ _ v _ hr hoff =>
  ⟨fun he => (step_access he).trans (hostAccess_inReset hoff (.write v) hr),
    fun he => (step_access he).trans (hostAccess_inReset hoff .read hr)⟩

/-! ## What LAT depends on (70_reset_and_hazards R243, R244) -/

/-- LAT's form read off the command with its operand, the installed variant and the fill length. -/
def latFormOf (i : Instr) (ksz : KeySize) (fill : Nat) : Config.LatForm :=
  match i with
  | .aesKeyexp code => .keyexp code
  | .aesEnc => .enc ksz.code
  | .aesDec => .dec ksz.code
  | .shaInit => .init
  | .shaUpdate len => .update fill len
  | .shaFinal => .final fill

theorem latForm_eq (c : Inflight) (s : State) : latForm c s = latFormOf c.instr s.cipher.ksz s.sha.fill := by
  cases c <;> rfl

/-- Settles O39: LAT is a successor, and its form does not read the data. -/
theorem latencyIsPositiveAndDataIndependent : Obligations.LatencyIsPositiveAndDataIndependent := by
  intro a b s t
  refine ⟨Nat.succ_pos _, fun hi hk hf => ?_⟩
  rw [latForm_eq, latForm_eq, hi, hk, hf]

end Sys2Proof.Machine
end
